-- ==== Sys2Proof/Word.lean ====
section
/-! DEFINITION. The bit-vector types of the FrameEncoder: a command word is 32 bits (spec/30_encoding.md R42),
a payload byte, a counter and the accumulator are 8 bits, a key, an id and a torque are 16 bits
(spec/00_scope.md R9). -/

namespace Sys2Proof

/-- A command word, `cmd_data` (R42). -/
abbrev Word := BitVec 32

/-- A payload byte, a `CTR` operand, `ACC`, `VAL` (R9). -/
abbrev Byte := BitVec 8

/-- An `IMM16` operand: torque, lookup key or message id (R9, R47). -/
abbrev Half := BitVec 16

end Sys2Proof
end

