-- ==== Sys2Proof/Config.lean ====
section
/-! DEFINITION. What is fixed when the block is built and what nothing in the spec fixes: the four stalk-state
codes (spec/00_scope.md R6, R8), the ChecksumTable `OBS_TABLE` (R7), and the free input samples of a host about
which the model says nothing. -/

namespace Sys2Proof.Config

/-- `UP_2ND` (R6). -/
def up2nd : Half := 4

/-- `UP_1ST` (R6). -/
def up1st : Half := 16

/-- The `i`-th number other than `hole`, counted in order from 0. -/
def skip (hole i : Nat) : Nat :=
  if i < hole then i else i + 1

/-- The code of DN_2ND that has index `a` among the 16-bit values other than `UP_2ND` and `UP_1ST` (R8).
The 15 is the place of 16 once 4 is left out. -/
def dn2ndOf (a : Fin 65534) : Half :=
  BitVec.ofNat 16 (skip 4 (skip 15 a.val))

/-- The code of DN_1ST that has index `b` among the 16-bit values other than `UP_2ND`, `UP_1ST` and
`dn2ndOf a` (R8). -/
def dn1stOf (a : Fin 65534) (b : Fin 65533) : Half :=
  BitVec.ofNat 16 (skip 4 (skip 15 (skip a.val b.val)))

/-- OPEN (R8, D25): which admissible value `STALK_CODE_DN_2ND` is. No body: nothing can evaluate it.
Assumption log 4. -/
opaque dn2ndIndex : Fin 65534

/-- OPEN (R8, D25): which admissible value `STALK_CODE_DN_1ST` is. No body. Assumption log 4. -/
opaque dn1stIndex : Fin 65533

/-- `STALK_CODE_DN_2ND` (R8): any 16-bit value other than 4 and 16. -/
def stalkCodeDn2nd : Half := dn2ndOf dn2ndIndex

/-- `STALK_CODE_DN_1ST` (R8): any 16-bit value other than 4, 16 and `STALK_CODE_DN_2ND`. -/
def stalkCodeDn1st : Half := dn1stOf dn2ndIndex dn1stIndex

/-- The type of a ChecksumTable: key and 4-bit counter to a byte, or `none` where no observation is recorded
(R7; spec/20_memory.md R29). -/
abbrev ObsTable := Half → BitVec 4 → Option Byte

/-- The keys a table may hold entries for (R7 item 1), given the two DN codes. -/
def knownKey (dn2nd dn1st k : Half) : Bool :=
  k == up2nd || k == dn2nd || k == up1st || k == dn1st

/-- R7 items 1 and 2: what a ChecksumTable must satisfy, given the two DN codes. -/
def ObsAdmissible (dn2nd dn1st : Half) (t : ObsTable) : Prop :=
  (∀ k c, knownKey dn2nd dn1st k = false → t k c = none) ∧ t up1st 2 = none

/-- `raw` with the entries removed that R7 items 1 and 2 say no table has. Every admissible table is of this
form, and every table of this form is admissible (Sys2Proof/Laws/Config.lean). -/
def restrictTable (dn2nd dn1st : Half) (raw : ObsTable) : ObsTable := fun k c =>
  if knownKey dn2nd dn1st k && !(k == up1st && c == 2) then raw k c else none

/-- OPEN (R7, D24): the recorded observations. No body. Assumption log 3. -/
opaque rawObservation : Half → BitVec 4 → Option Byte

/-- `OBS_TABLE` (R7): the contents of the ChecksumTable ROM, any admissible table. -/
def obsTable : ObsTable := restrictTable stalkCodeDn2nd stalkCodeDn1st rawObservation

/-- The named premise `obs_table_2nd_complete` of R7 item 3, about any table: every (UP_2ND, c) and (DN_2ND, c)
entry is recorded. The model never assumes it. -/
def ObsTable2ndComplete (dn2nd : Half) (t : ObsTable) : Prop :=
  ∀ c, (t up2nd c).isSome ∧ (t dn2nd c).isSome

/-- Free value: `rst` at an edge for which the host's list of samples holds nothing. Assumption log 2. -/
opaque freeRst : Nat → Bool

/-- Free value: `cmd_valid` at such an edge. Assumption log 2. -/
opaque freeCmdValid : Nat → Bool

/-- Free value: `cmd_data` at such an edge. Assumption log 2. -/
opaque freeCmdData : Nat → Word

/-- Free value: `rsp_ready` at such an edge. Assumption log 2. -/
opaque freeRspReady : Nat → Bool

end Sys2Proof.Config
end

