-- ==== Sys2Proof/Syntax.lean ====
section
/-! DEFINITION. The commands of the FrameEncoder, one constructor per row of spec/opcode_table.json
(spec/30_encoding.md R48). Every operand has exactly the width of the field that carries it (R46, R47). -/

namespace Sys2Proof

/-- A command with its operands, as decoded (R2, R48). -/
inductive Instr where
  /-- `STEER en, torque, ctr` (spec/41_frame_builders.md R68): `enabled` = E, `torque` = IMM16 (a two's-complement
  bit pattern), `ctr` = CTR, all 8 bits of it, of which the meaning uses bits 5:0. -/
  | steer (enabled : Bool) (torque : Half) (ctr : Byte)
  /-- `EPB ctr` (R71): `ctr` = CTR. -/
  | epb (ctr : Byte)
  /-- `STALK state, ctr` (R73): `state` = IMM16[5:0], `ctr` = CTR. -/
  | stalk (state : BitVec 6) (ctr : Byte)
  /-- `OBSCKS key, ctr` (spec/42_diagnostic_lookup.md R81): `key` = IMM16, `ctr` = CTR. -/
  | obscks (key : Half) (ctr : Byte)
  /-- `CKINIT id` (spec/40_checksum.md R62): `id` = IMM16. -/
  | ckinit (id : Half)
  /-- `CKADD byte` (R63): `byte` = CTR. -/
  | ckadd (byte : Byte)
deriving DecidableEq, Repr

end Sys2Proof
end

