-- ==== Sys2Proof/WellFormed.lean ====
section
/-! DEFINITION. What is well formed. A command term is well formed by its type: every operand has exactly the
width of its field, so no term of `Instr` stands for an operand the encoding cannot carry. What CAN be ill formed is
a command word; the check on words is the opcode table itself (spec/30_encoding.md R48: mask and match), written apart
from the decoder, which follows R50 and R92. -/

namespace Sys2Proof

/-- Every command term is well formed: `state` is 6 bits, `ctr` and `byte` 8, `torque`, `key` and `id` 16 (R9).
The match names every constructor so that a wider operand would have to be checked here. -/
def Instr.wellFormed : Instr → Bool
  | .steer _ _ _ => true
  | .epb _ => true
  | .stalk _ _ => true
  | .obscks _ _ => true
  | .ckinit _ => true
  | .ckadd _ => true

/-- One row of the opcode map (R48): a word is of this row when `word &&& mask = pattern`. -/
structure OpcodeRow where
  mnemonic : String
  mask : Word
  pattern : Word
deriving DecidableEq, Repr

/-- The opcode map, R48, row by row. -/
def opcodeRows : List OpcodeRow :=
  [ ⟨"STEER",  0xF7000000, 0x10000000⟩,
    ⟨"EPB",    0xFF00FFFF, 0x20000000⟩,
    ⟨"STALK",  0xFF00FFC0, 0x30000000⟩,
    ⟨"OBSCKS", 0xFF000000, 0x40000000⟩,
    ⟨"CKINIT", 0xFFFF0000, 0x50000000⟩,
    ⟨"CKADD",  0xFF00FFFF, 0x60000000⟩ ]

/-- `w` is a word of row `r` (R48). -/
def OpcodeRow.covers (r : OpcodeRow) (w : Word) : Bool :=
  w &&& r.mask == r.pattern

/-- `w` is a well-formed command word: some row of the opcode map covers it (R48). -/
def wordWellFormed (w : Word) : Bool :=
  opcodeRows.any (·.covers w)

end Sys2Proof
end

