-- ==== Sys2Proof/Decode.lean ====
section
/-! DEFINITION. Decoding a command word (spec/30_encoding.md R42 to R50, spec/60_exceptions.md R92), total on all
2^32 words, rejecting by name; and after it the encoder. -/

namespace Sys2Proof

/-- `OP = cmd[31:28]` (R43). -/
def fieldOp (w : Word) : BitVec 4 := w.extractLsb' 28 4

/-- `E = cmd[27]` (R44). -/
def fieldE (w : Word) : BitVec 1 := w.extractLsb' 27 1

/-- `RSV = cmd[26:24]` (R45). -/
def fieldRsv (w : Word) : BitVec 3 := w.extractLsb' 24 3

/-- `CTR = cmd[23:16]` (R46). -/
def fieldCtr (w : Word) : Byte := w.extractLsb' 16 8

/-- `IMM16 = cmd[15:0]` (R47). -/
def fieldImm16 (w : Word) : Half := w.extractLsb' 0 16

/-- The six assigned opcodes (R48). -/
inductive Opcode where
  | steer | epb | stalk | obscks | ckinit | ckadd
deriving DecidableEq, Repr

/-- Why a word is no command. -/
inductive DecodeError where
  /-- `raise IllegalOp()`: OP is 0x0 or 0x7 to 0xF (R49, R89). -/
  | illegalOp
  /-- `raise ReservedField()`: OP is assigned and a must-be-0 bit is 1 (R50, R90). -/
  | reservedField
deriving DecidableEq, Repr

/-- The command an OP selects (R48); none where R49 says it is illegal. -/
def opcodeOf (op : BitVec 4) : Option Opcode :=
  match op.toNat with
  | 1 => some .steer
  | 2 => some .epb
  | 3 => some .stalk
  | 4 => some .obscks
  | 5 => some .ckinit
  | 6 => some .ckadd
  | _ => none

/-- `RsvMask(OP)` (R50): the bits that must be 0. -/
def rsvMask : Opcode → Word
  | .steer => 0x07000000
  | .epb => 0x0F00FFFF
  | .stalk => 0x0F00FFC0
  | .obscks => 0x0F000000
  | .ckinit => 0x0FFF0000
  | .ckadd => 0x0F00FFFF

/-- The operands of each command (R44, R46, R47; `stalk_state = IMM16[5:0]`). -/
def operandsOf (op : Opcode) (w : Word) : Instr :=
  match op with
  | .steer => .steer (fieldE w == 1) (fieldImm16 w) (fieldCtr w)
  | .epb => .epb (fieldCtr w)
  | .stalk => .stalk (w.extractLsb' 0 6) (fieldCtr w)
  | .obscks => .obscks (fieldImm16 w) (fieldCtr w)
  | .ckinit => .ckinit (fieldImm16 w)
  | .ckadd => .ckadd (fieldCtr w)

/-- `Decode(cmd)` (R92): the opcode is checked first, then the reserved fields. -/
def decode (w : Word) : Except DecodeError Instr :=
  match opcodeOf (fieldOp w) with
  | none => .error .illegalOp
  | some op =>
    if w &&& rsvMask op ≠ 0 then .error .reservedField
    else .ok (operandsOf op w)

/-- The instruction the decoder reads from a word given as a number whose bit 0 is the word's least significant
bit. Every command is one 32-bit word (R56) and is presented whole on `cmd_data`, so no byte order enters; the bits
of `w` above `nbits` count as 0. Assumption log 5. -/
def decodeTableWord (nbits w : Nat) : Option Instr :=
  match decode (BitVec.ofNat 32 (w % 2 ^ nbits)) with
  | .ok i => some i
  | .error _ => none

/-! ## The encoder -/

/-- A word put together from its five fields (R42). -/
def packWord (op : BitVec 4) (e : BitVec 1) (rsv : BitVec 3) (ctr : Byte) (imm16 : Half) : Word :=
  op ++ e ++ rsv ++ ctr ++ imm16

/-- The word of a command (R48, R57): unused fields are 0. -/
def encode : Instr → Word
  | .steer enabled torque ctr => packWord 1 (BitVec.ofBool enabled) 0 ctr torque
  | .epb ctr => packWord 2 0 0 ctr 0
  | .stalk state ctr => packWord 3 0 0 ctr (state.setWidth 16)
  | .obscks key ctr => packWord 4 0 0 ctr key
  | .ckinit id => packWord 5 0 0 0 id
  | .ckadd byte => packWord 6 0 0 byte 0

end Sys2Proof
end

