-- ==== Sys2Proof/Machine/State.lean ====
section
/-! DEFINITION. The state of the FrameEncoder (spec/10_state.md R15 to R17), the samples of its input ports (R14), the
state after reset (R25), and the types of faults and refusals. -/

namespace Sys2Proof.Machine

/-- One sample of the input ports at a rising edge of `clk` (R14). -/
structure Pins where
  rst : Bool
  cmdValid : Bool
  cmdData : Word
  rspReady : Bool
deriving DecidableEq, Repr

/-- The response register `RSP` (R17). -/
structure Rsp where
  status : BitVec 2
  frame : Bool
  hit : Bool
  val : Byte
  id : Half
  qual : Byte
  bus : Byte
  dlc : BitVec 4
  data : Vector Byte 8
deriving DecidableEq, Repr

/-- The machine's state. `acc`, `pend` and `rsp` are the block's own (R15 to R17, R23: there is no other);
`pins` and `freeIndex` stand for the world that drives its ports. -/
structure State where
  /-- `ACC` (R15). -/
  acc : Byte
  /-- `PEND` (R16). -/
  pend : Bool
  /-- `RSP` (R17). -/
  rsp : Rsp
  /-- The model's own: what the host drives at the coming edges, the next edge first. Assumption log 1. -/
  pins : List Pins
  /-- The model's own: which free sample the next edge reads when `pins` is empty. Assumption log 2. -/
  freeIndex : Nat
deriving DecidableEq, Repr

/-- Every field of `RSP` at its reset value (R17, R25). -/
def Rsp.reset : Rsp where
  status := 0
  frame := false
  hit := false
  val := 0
  id := 0
  qual := 0
  bus := 0
  dlc := 0
  data := #v[0, 0, 0, 0, 0, 0, 0, 0]

/-- The machine right after reset (R25): `ACC = 0x00`, `PEND = 0`, every field of `RSP` 0. The host has scripted
nothing (assumption logs 1 and 2). -/
def State.reset : State where
  acc := 0
  pend := false
  rsp := Rsp.reset
  pins := []
  freeIndex := 0

/-- Why a step can stop with a fault: there is no reason. The block has no traps (spec/60_exceptions.md R91) and
its two errors are responses, after which it goes on (R88). Assumption log 8. -/
inductive Fault
deriving DecidableEq, Repr

/-- Why an instruction can be refused. -/
inductive Refusal where
  /-- Raised only by an arm of `exec` whose instruction has no meaning yet; safe. No arm raises it. -/
  | notModelled (mnemonic : String)
deriving DecidableEq, Repr

/-- The answer of a meaning or a step. -/
abbrev Result := Host.Outcome State Fault Refusal

end Sys2Proof.Machine
end

