-- ==== Sys2Proof/Machine/Constants.lean ====
section
/-! DEFINITION. The named constants of spec/00_scope.md R6 (the two UP codes stand in Config.lean). As the source
asks, `stalkValid` and `stalkDistance` are kept as opaque names with no further meaning (R6, R74). -/

namespace Sys2Proof.Machine

def idSteer : Half := 0x488
def idEpb : Half := 0x214
def idStalk : Half := 0x45
def busSteer : Byte := 2
def busEpb : Byte := 2
def busStalk : Byte := 0

/-- `LEN_STEER`, `LEN_EPB`, `LEN_STALK`: the payload lengths in bytes, checksum byte included. -/
def lenSteer : Nat := 4
def lenEpb : Nat := 3
def lenStalk : Nat := 8

/-- `QUALIFIER`: "always 0 in this core". -/
def qualifier : Byte := 0

/-- `EPB_ENABLE`: byte[0] of EPB. -/
def epbEnable : Byte := 1

/-- `STALK_VALID`: the `+2` of stalk byte[0]. -/
def stalkValid : Nat := 2

/-- `STALK_DISTANCE`: stalk byte[1]. -/
def stalkDistance : Byte := 255

/-- `OBS_SENTINEL`: the value of a lookup that finds nothing. -/
def obsSentinel : Byte := 0

end Sys2Proof.Machine
end

