-- ==== Sys2Proof/Machine/Flags.lean ====
section
/-! DEFINITION. The flags, which are fields of the response only (spec/10_state.md R20): the encoding of `STATUS`
(spec/30_encoding.md R55) and the three kinds of record told apart by `STATUS` and `FRAME`. -/

namespace Sys2Proof.Machine

/-- `OK` (R55). -/
def statusOk : BitVec 2 := 0

/-- `ILLEGAL_OP` (R55). -/
def statusIllegalOp : BitVec 2 := 1

/-- `RSVD_FIELD` (R55). -/
def statusRsvdField : BitVec 2 := 2

/-- The status an error is reported with (spec/60_exceptions.md R88). -/
def statusOf : DecodeError → BitVec 2
  | .illegalOp => statusIllegalOp
  | .reservedField => statusRsvdField

/-- The record carries a frame (R55). -/
def Rsp.isFrame (r : Rsp) : Bool := r.status == statusOk && r.frame

/-- The record carries a scalar (R55). -/
def Rsp.isScalar (r : Rsp) : Bool := r.status == statusOk && !r.frame

/-- The record reports an error (R55). -/
def Rsp.isError (r : Rsp) : Bool := r.status != statusOk

end Sys2Proof.Machine
end

