-- ==== Sys2Proof/Machine/Operands.lean ====
section
/-! DEFINITION. How each operand stands in a payload: the torque's byte order (spec/20_memory.md R32), the counter mux
(spec/41_frame_builders.md R79), the type bit of STEER (R69) and the state byte of STALK (R73). -/

namespace Sys2Proof.Machine

/-- `torque[15:8]`, the byte at the lower payload index (R32). -/
def torqueHigh (torque : Half) : Byte := torque.extractLsb' 8 8

/-- `torque[7:0]` (R32). -/
def torqueLow (torque : Half) : Byte := torque.extractLsb' 0 8

/-- STEER byte[2], `(type << 6) | (ctr & 0x3F)` with `type` 1 if `enabled` and 0 if not (R69, R79). -/
def steerByte2 (enabled : Bool) (ctr : Byte) : Byte :=
  ((BitVec.ofBool enabled).setWidth 8 <<< 6) ||| (ctr &&& 0x3F)

/-- STALK byte[0], `(s << 2) + 2` on unbounded integers, narrowed to a byte (R73; at most 254 by R74). -/
def stalkByte0 (state : BitVec 6) : Byte :=
  BitVec.ofNat 8 ((state.toNat <<< 2) + stalkValid)

/-- The non-checksum payload of STEER (R69). -/
def steerPayload (enabled : Bool) (torque : Half) (ctr : Byte) : List Byte :=
  [torqueHigh torque, torqueLow torque, steerByte2 enabled ctr]

/-- The non-checksum payload of EPB (R71). -/
def epbPayload (ctr : Byte) : List Byte :=
  [epbEnable, ctr]

/-- The non-checksum payload of STALK (R73). -/
def stalkPayload (state : BitVec 6) (ctr : Byte) : List Byte :=
  [stalkByte0 state, stalkDistance, 0x00, 0x00, 0x00, 0x00, ctr]

end Sys2Proof.Machine
end

