-- ==== Sys2Proof/Machine/Ops.lean ====
section
/-! DEFINITION. The operations the meanings share: the checksum (spec/40_checksum.md R59), the three kinds of record
(spec/30_encoding.md R52 to R54), the ROM read (spec/20_memory.md R30), answering a command, taking an error
(spec/60_exceptions.md R88), and the output ports (spec/10_state.md R22, spec/30_encoding.md R51).
The block has no data memory (R28), no trap and so no return from one (R91). -/

namespace Sys2Proof.Machine

/-! ## The checksum -/

/-- The seed, `(id & 0xFF) + ((id >> 8) & 0xFF)`, 0 to 510 (R59). -/
def seed (id : Half) : Nat :=
  (id.extractLsb' 0 8).toNat + (id.extractLsb' 8 8).toNat

/-- `Checksum(id, bytes)` (R59): fold every byte in, first to last, keeping 8 bits after each addition; the final
narrowing matters only for the empty sequence. -/
def checksum (id : Half) (bytes : List Byte) : Byte :=
  BitVec.ofNat 8 (bytes.foldl (fun s b => (s + b.toNat) % 256) (seed id))

/-! ## The response record -/

/-- `DATA[0..7]` of a payload: byte `i` of it, 0x00 past its end (R52). -/
def padPayload (p : List Byte) : Vector Byte 8 :=
  #v[p.getD 0 0, p.getD 1 0, p.getD 2 0, p.getD 3 0, p.getD 4 0, p.getD 5 0, p.getD 6 0, p.getD 7 0]

/-- `Frame(id, payload, bus)` (R52). -/
def frameRecord (id : Half) (payload : List Byte) (bus : Byte) : Rsp where
  status := statusOk
  frame := true
  hit := false
  val := 0x00
  id := id
  qual := qualifier
  bus := bus
  dlc := BitVec.ofNat 4 payload.length
  data := padPayload payload

/-- `Scalar(val, hit)` (R53). -/
def scalarRecord (val : Byte) (hit : Bool) : Rsp where
  status := statusOk
  frame := false
  hit := hit
  val := val
  id := 0
  qual := 0
  bus := 0
  dlc := 0
  data := padPayload []

/-- `Error(s)` (R54). -/
def errorRecord (status : BitVec 2) : Rsp where
  status := status
  frame := false
  hit := false
  val := 0
  id := 0
  qual := 0
  bus := 0
  dlc := 0
  data := padPayload []

/-- The frame of a builder (R67): its payload with the checksum of the message's own id appended. -/
def buildRecord (id : Half) (p : List Byte) (bus : Byte) : Rsp :=
  frameRecord id (p ++ [checksum id p]) bus

/-! ## The ROM -/

/-- `RomRead(k, c)` of a table (R30): no side effect, no fault. -/
def romRead (t : Config.ObsTable) (k : Half) (c : BitVec 4) : Option Byte := t k c

/-- The lookup of OBSCKS (spec/42_diagnostic_lookup.md R82): the counter is compared whole before it is narrowed to
4 bits (R86), and past 15 there is no entry. -/
def observedEntry (t : Config.ObsTable) (k : Half) (c : Byte) : Option Byte :=
  if c.toNat ≤ 15 then romRead t k (c.extractLsb' 0 4) else none

/-- The record of a lookup (R82, R83): a recorded entry with `HIT = 1`, even if it is 0, else the sentinel. -/
def lookupRecord : Option Byte → Rsp
  | some v => scalarRecord v true
  | none => scalarRecord obsSentinel false

/-! ## Answering a command -/

/-- An accepted command writes the whole of `RSP` and sets `PEND` at the accepting edge (R26, R27, R104). -/
def respond (r : Rsp) (s : State) : State :=
  { s with rsp := r, pend := true }

/-- Writing `ACC` and reporting the value written, as CKINIT and CKADD do (R62, R63). -/
def respondAcc (v : Byte) (s : State) : State :=
  respond (scalarRecord v false) { s with acc := v }

/-- Taking an error (R88): `RSP <- Error(status)`, `PEND <- 1`, `ACC` kept, control goes nowhere else. -/
def takeError (e : DecodeError) (s : State) : State :=
  respond (errorRecord (statusOf e)) s

/-! ## Reset and the output ports -/

/-- An edge with `rst = 1` (spec/70_reset_and_hazards.md R100): `ACC`, `PEND` and `RSP` to their reset values. -/
def resetBlock (s : State) : State :=
  { s with acc := 0, pend := false, rsp := Rsp.reset }

/-- `cmd_ready = (PEND == 0) AND (rst == 0)` (R22). -/
def cmdReady (rst : Bool) (s : State) : Bool := !s.pend && !rst

/-- `rsp_valid = PEND` (R22). -/
def rspValid (s : State) : Bool := s.pend

/-- `pack(RSP)` (R51). -/
def packRsp (r : Rsp) : BitVec 128 :=
  r.data[0] ++ r.data[1] ++ r.data[2] ++ r.data[3] ++ r.data[4] ++ r.data[5] ++ r.data[6] ++ r.data[7]
    ++ r.id ++ r.qual ++ r.bus ++ r.dlc ++ r.val ++ BitVec.ofBool r.hit ++ BitVec.ofBool r.frame ++ r.status
    ++ (0 : BitVec 16)

/-- `rsp_data = pack(RSP)` (R22), also while `rsp_valid = 0` (R109). -/
def rspData (s : State) : BitVec 128 := packRsp s.rsp

end Sys2Proof.Machine
end

