-- ==== Sys2Proof/Machine/Builders.lean ====
section
/-! DEFINITION. The three frame builders (spec/41_frame_builders.md). None reads or writes `ACC` (R67). -/

namespace Sys2Proof.Machine

/-- STEER (R69). -/
def execSteer (enabled : Bool) (torque : Half) (ctr : Byte) (s : State) : Result :=
  .next (respond (buildRecord idSteer (steerPayload enabled torque ctr) busSteer) s)

/-- EPB (R71). -/
def execEpb (ctr : Byte) (s : State) : Result :=
  .next (respond (buildRecord idEpb (epbPayload ctr) busEpb) s)

/-- STALK (R73). -/
def execStalk (state : BitVec 6) (ctr : Byte) (s : State) : Result :=
  .next (respond (buildRecord idStalk (stalkPayload state ctr) busStalk) s)

end Sys2Proof.Machine
end

