-- ==== Sys2Proof/Machine/Lookup.lean ====
section
/-! DEFINITION. The observed-checksum lookup (spec/42_diagnostic_lookup.md). It neither reads nor writes `ACC`. -/

namespace Sys2Proof.Machine

/-- OBSCKS (R82), with the block's own table. -/
def execObscks (key : Half) (ctr : Byte) (s : State) : Result :=
  .next (respond (lookupRecord (observedEntry Config.obsTable key ctr)) s)

end Sys2Proof.Machine
end

