-- ==== Sys2Proof/Machine/Streaming.lean ====
section
/-! DEFINITION. The streaming form of the checksum (spec/40_checksum.md R62, R63). -/

namespace Sys2Proof.Machine

/-- CKINIT (R62): the checksum of the empty sequence, that is the seed mod 256. -/
def execCkinit (id : Half) (s : State) : Result :=
  .next (respondAcc (checksum id []) s)

/-- CKADD (R63): `(ACC + b) mod 256`. -/
def execCkadd (byte : Byte) (s : State) : Result :=
  .next (respondAcc (s.acc + byte) s)

end Sys2Proof.Machine
end

