-- ==== Sys2Proof/Machine/Dispatch.lean ====
section
/-! DEFINITION. What an accepted command does: one arm per row of spec/opcode_table.json. -/

namespace Sys2Proof.Machine

def exec (i : Instr) (s : State) : Host.Outcome State Fault Refusal :=
  match i with
  | .steer enabled torque ctr => Sys2Proof.Machine.execSteer enabled torque ctr s
  | .epb ctr => Sys2Proof.Machine.execEpb ctr s
  | .stalk state ctr => Sys2Proof.Machine.execStalk state ctr s
  | .obscks key ctr => Sys2Proof.Machine.execObscks key ctr s
  | .ckinit id => Sys2Proof.Machine.execCkinit id s
  | .ckadd byte => Sys2Proof.Machine.execCkadd byte s

end Sys2Proof.Machine
end

