-- ==== Sys2Proof/Machine/Edge.lean ====
section
/-! DEFINITION. What a rising edge of `clk` does (spec/70_reset_and_hazards.md R104): sampling the ports, reset, holding
and handing over a response, accepting a command. -/

namespace Sys2Proof.Machine

/-- `Execute` (R104): decode the accepted word (spec/60_exceptions.md R92) and run it, or take the error (R88). -/
def execute (w : Word) (s : State) : Result :=
  match decode w with
  | .ok i => exec i s
  | .error e => .next (takeError e s)

/-- The block at an edge that samples `p` (R104). -/
def edge (p : Pins) (s : State) : Result :=
  if p.rst then .next (resetBlock s)
  else if s.pend then
    if p.rspReady then .next { s with pend := false } else .next s
  else if p.cmdValid then execute p.cmdData s
  else .next s

/-- The sample the next edge reads: what the host has scripted, else a free value (assumption logs 1 and 2). -/
def samplePins (s : State) : Pins :=
  match s.pins with
  | p :: _ => p
  | [] =>
    { rst := Config.freeRst s.freeIndex
      cmdValid := Config.freeCmdValid s.freeIndex
      cmdData := Config.freeCmdData s.freeIndex
      rspReady := Config.freeRspReady s.freeIndex }

/-- The state with that sample used up. -/
def consumePins (s : State) : State :=
  match s.pins with
  | _ :: ps => { s with pins := ps }
  | [] => { s with freeIndex := s.freeIndex + 1 }

/-- One rising edge with the sample the state holds for it. -/
def clockEdge (s : State) : Result :=
  edge (samplePins s) (consumePins s)

/-- A command is accepted at this edge: `cmd_valid` and `cmd_ready` are both 1 (spec/00_scope.md glossary). -/
def accepts (p : Pins) (s : State) : Bool := p.cmdValid && cmdReady p.rst s

/-- The held response is taken at this edge: `rsp_valid` and `rsp_ready` are both 1 and no reset discards it
(R101, R104). -/
def takes (p : Pins) (s : State) : Bool := rspValid s && p.rspReady && !p.rst

/-- The sample of a host that presents `w` and nothing else. -/
def presentPins (w : Word) : Pins :=
  { rst := false, cmdValid := true, cmdData := w, rspReady := false }

/-- `s` with `w` presented at the next edge, and with no response held, so that the edge accepts it (R22).
Assumption log 5. -/
def presentCommand (w : Word) (s : State) : State :=
  { s with pend := false, pins := presentPins w :: s.pins }

end Sys2Proof.Machine
end

