-- ==== Sys2Proof/Machine/Step.lean ====
section
/-! DEFINITION. The step of the machine: one rising edge of `clk` (spec/70_reset_and_hazards.md R104). -/

namespace Sys2Proof.Machine

def step (s : State) : Host.Outcome State Fault Refusal := clockEdge s

/-- `s` with the word presented on the command port at the next edge, which accepts it. Assumption log 5. -/
def State.withFetchWord (s : State) (nbits w : Nat) : State :=
  presentCommand (BitVec.ofNat 32 (w % 2 ^ nbits)) s

end Sys2Proof.Machine
end

