-- ==== Sys2Proof/Machine/Assembler.lean ====
section
/-! DEFINITION. The assembler syntax (spec/30_encoding.md R57) and the pseudo-commands (R58), on lines of characters. What
R57 leaves open of the lexical rules is listed in assumption log 9. The assembler is a tool of the host; nothing in the
machine calls it. -/

namespace Sys2Proof.Machine.Asm

/-- Why a line is rejected. -/
inductive AsmError where
  /-- The mnemonic is none of R57's or R58's; `NOP` is one of these (R58). -/
  | unknownMnemonic
  /-- The command takes another number of operands. -/
  | operandCount
  /-- The operand is no numeral and no name that the command accepts here. -/
  | badOperand
  /-- The operand is outside its range; it is rejected, not reduced (R57). -/
  | outOfRange
deriving DecidableEq, Repr

/-- The names of the four stalk states (R57). -/
inductive StalkName where
  | up2nd | up1st | dn2nd | dn1st
deriving DecidableEq, Repr

/-- The DN codes, where the assembler is given them (R57). -/
structure DnCodes where
  dn2nd : Option Half
  dn1st : Option Half
deriving DecidableEq, Repr

/-- An operand as written: decimal, hexadecimal with `0x`, `OFF` or `ON`, or a stalk-state name (R57). -/
inductive Operand where
  | dec (n : Int)
  | hex (n : Nat)
  | off
  | on
  | stalk (n : StalkName)
deriving DecidableEq, Repr

/-- What a line stands for: one command, a raw word, or `CKSUM` (R57, R58). -/
inductive Stmt where
  | command (i : Instr)
  | word (w : Word)
  | cksum (id : Half) (bytes : List Byte)
deriving DecidableEq, Repr

/-! ## Lexical rules -/

def isBlankChar (c : Char) : Bool := c == ' ' || c == '\t'

def trimLeft : List Char → List Char
  | [] => []
  | c :: cs => if isBlankChar c then trimLeft cs else c :: cs

def trim (cs : List Char) : List Char :=
  (trimLeft (trimLeft cs).reverse).reverse

/-- Operands are separated by commas (R57). -/
def splitCommas : List Char → List (List Char)
  | [] => [[]]
  | c :: cs =>
    if c == ',' then [] :: splitCommas cs
    else
      match splitCommas cs with
      | [] => [[c]]
      | h :: t => (c :: h) :: t

/-- The mnemonic, up to the first blank, and the rest of the line. -/
def splitMnemonic : List Char → List Char × List Char
  | [] => ([], [])
  | c :: cs =>
    if isBlankChar c then ([], cs)
    else ((c :: (splitMnemonic cs).1), (splitMnemonic cs).2)

def lowerChar (c : Char) : Char :=
  if 'A' ≤ c ∧ c ≤ 'Z' then Char.ofNat (c.toNat + 32) else c

def decDigit (c : Char) : Option Nat :=
  if '0' ≤ c ∧ c ≤ '9' then some (c.toNat - 48) else none

def hexDigit (c : Char) : Option Nat :=
  let l := lowerChar c
  if 'a' ≤ l ∧ l ≤ 'f' then some (l.toNat - 87) else decDigit c

/-- Digits to a number, most significant first. -/
def digitsValue (base : Nat) (digit : Char → Option Nat) : Nat → List Char → Option Nat
  | acc, [] => some acc
  | acc, c :: cs =>
    match digit c with
    | some d => digitsValue base digit (acc * base + d) cs
    | none => none

def numeral (base : Nat) (digit : Char → Option Nat) (cs : List Char) : Option Nat :=
  if cs.isEmpty then none else digitsValue base digit 0 cs

def parseOperand (cs : List Char) : Option Operand :=
  if cs == ['O', 'F', 'F'] then some .off
  else if cs == ['O', 'N'] then some .on
  else if cs == ['U', 'P', '_', '2', 'N', 'D'] then some (.stalk .up2nd)
  else if cs == ['U', 'P', '_', '1', 'S', 'T'] then some (.stalk .up1st)
  else if cs == ['D', 'N', '_', '2', 'N', 'D'] then some (.stalk .dn2nd)
  else if cs == ['D', 'N', '_', '1', 'S', 'T'] then some (.stalk .dn1st)
  else
    match cs with
    | '0' :: 'x' :: ds => (numeral 16 hexDigit ds).map .hex
    | '-' :: ds => (numeral 10 decDigit ds).map fun n => .dec (-(n : Int))
    | _ => (numeral 10 decDigit cs).map fun n => .dec n

def parseOperands (rest : List Char) : Option (List Operand) :=
  if (trim rest).isEmpty then some []
  else (splitCommas rest).mapM fun cs => parseOperand (trim cs)

/-! ## Operands and their ranges (R57) -/

/-- An unsigned operand of `bits` bits, decimal or hexadecimal, from 0 to `2^bits - 1`. -/
def unsignedOperand (bits : Nat) : Operand → Except AsmError (BitVec bits)
  | .dec n => if 0 ≤ n ∧ n < 2 ^ bits then .ok (BitVec.ofInt bits n) else .error .outOfRange
  | .hex n => if n < 2 ^ bits then .ok (BitVec.ofNat bits n) else .error .outOfRange
  | _ => .error .badOperand

/-- `torque` in -32768..32767, encoded mod 2^16, or 0x0000..0xFFFF as a raw bit pattern. -/
def torqueOperand : Operand → Except AsmError Half
  | .dec n => if -32768 ≤ n ∧ n ≤ 32767 then .ok (BitVec.ofInt 16 n) else .error .outOfRange
  | .hex n => if n < 2 ^ 16 then .ok (BitVec.ofNat 16 n) else .error .outOfRange
  | _ => .error .badOperand

/-- `en` in 0 and 1, also spelled `OFF` and `ON`. -/
def enableOperand : Operand → Except AsmError Bool
  | .off => .ok false
  | .on => .ok true
  | o =>
    match unsignedOperand 1 o with
    | .ok b => .ok (b == 1)
    | .error e => .error e

/-- The code of a named stalk state: the DN names stand for codes only where the assembler is given them (R57). DESIGN
CHOICE (assumption log 9): R57's "given `STALK_CODE_DN_2ND` and `STALK_CODE_DN_1ST`" may ask for both codes or for each
name's own; here a DN name needs its own code alone. -/
def stalkCode (codes : DnCodes) : StalkName → Option Half
  | .up2nd => some Config.up2nd
  | .up1st => some Config.up1st
  | .dn2nd => codes.dn2nd
  | .dn1st => codes.dn1st

/-- `key` in 0..65535 or a name. -/
def keyOperand (codes : DnCodes) : Operand → Except AsmError Half
  | .stalk n =>
    match stalkCode codes n with
    | some k => .ok k
    | none => .error .badOperand
  | o => unsignedOperand 16 o

/-- `state` in 0..63 or a name whose code is at most 63. -/
def stateOperand (codes : DnCodes) : Operand → Except AsmError (BitVec 6)
  | .stalk n =>
    match stalkCode codes n with
    | some k => if k.toNat ≤ 63 then .ok (k.setWidth 6) else .error .outOfRange
    | none => .error .badOperand
  | o => unsignedOperand 6 o

/-- A list of byte operands, rejected at its first bad one. -/
def byteOperands : List Operand → Except AsmError (List Byte)
  | [] => .ok []
  | o :: os =>
    match unsignedOperand 8 o, byteOperands os with
    | .ok b, .ok bs => .ok (b :: bs)
    | .error e, _ => .error e
    | _, .error e => .error e

/-! ## Lines -/

/-- The statement of a mnemonic in lower case and its operands (R57, R58). There is no `NOP` (R58). -/
def statement (codes : DnCodes) (mnemonic : List Char) (ops : List Operand) : Except AsmError Stmt :=
  if mnemonic == ['s', 't', 'e', 'e', 'r'] then
    match ops with
    | [en, torque, ctr] => do
      let e ← enableOperand en
      let t ← torqueOperand torque
      let c ← unsignedOperand 8 ctr
      return .command (.steer e t c)
    | _ => .error .operandCount
  else if mnemonic == ['e', 'p', 'b'] then
    match ops with
    | [ctr] => do
      let c ← unsignedOperand 8 ctr
      return .command (.epb c)
    | _ => .error .operandCount
  else if mnemonic == ['s', 't', 'a', 'l', 'k'] then
    match ops with
    | [state, ctr] => do
      let st ← stateOperand codes state
      let c ← unsignedOperand 8 ctr
      return .command (.stalk st c)
    | _ => .error .operandCount
  else if mnemonic == ['o', 'b', 's', 'c', 'k', 's'] then
    match ops with
    | [key, ctr] => do
      let k ← keyOperand codes key
      let c ← unsignedOperand 8 ctr
      return .command (.obscks k c)
    | _ => .error .operandCount
  else if mnemonic == ['c', 'k', 'i', 'n', 'i', 't'] then
    match ops with
    | [id] => do
      let n ← unsignedOperand 16 id
      return .command (.ckinit n)
    | _ => .error .operandCount
  else if mnemonic == ['c', 'k', 'a', 'd', 'd'] then
    match ops with
    | [byte] => do
      let b ← unsignedOperand 8 byte
      return .command (.ckadd b)
    | _ => .error .operandCount
  else if mnemonic == ['.', 'w', 'o', 'r', 'd'] then
    match ops with
    | [w] => do
      let n ← unsignedOperand 32 w
      return .word n
    | _ => .error .operandCount
  else if mnemonic == ['c', 'k', 's', 'u', 'm'] then
    match ops with
    | id :: bytes => do
      let n ← unsignedOperand 16 id
      let bs ← byteOperands bytes
      return .cksum n bs
    | [] => .error .operandCount
  else .error .unknownMnemonic

/-- The words a statement stands for; `CKSUM` is CKINIT and then one CKADD a byte (R58). -/
def expand : Stmt → List Word
  | .command i => [encode i]
  | .word w => [w]
  | .cksum id bytes => encode (.ckinit id) :: bytes.map fun b => encode (.ckadd b)

/-- One line (R57): mnemonics are case-insensitive. -/
def assembleLine (codes : DnCodes) (line : List Char) : Except AsmError (List Word) :=
  let parts := splitMnemonic (trim line)
  match parseOperands parts.2 with
  | none => .error .badOperand
  | some ops =>
    match statement codes (parts.1.map lowerChar) ops with
    | .ok st => .ok (expand st)
    | .error e => .error e

/-- A program, one command a line; the first bad line's number, counted from `n`, with its error. -/
def assembleProgram (codes : DnCodes) (n : Nat) : List (List Char) → Except (Nat × AsmError) (List Word)
  | [] => .ok []
  | line :: lines =>
    match assembleLine codes line, assembleProgram codes (n + 1) lines with
    | .error e, _ => .error (n, e)
    | .ok _, .error e => .error e
    | .ok ws, .ok vs => .ok (ws ++ vs)

end Sys2Proof.Machine.Asm
end

