-- ==== Sys2Proof/Safety.lean ====
section
/-! DEFINITION. What a good state is and what a run shows the host: the records the block can hold, sequences of accepted
commands, and the commands accepted and responses taken along the edges of a run. -/

namespace Sys2Proof.Machine

/-- The headers of spec/41_frame_builders.md R77: id, payload length, bus. -/
abbrev Rsp.HeaderOk (r : Rsp) : Prop :=
  (r.id = 0x488 ∧ r.dlc = 4 ∧ r.bus = 2) ∨ (r.id = 0x214 ∧ r.dlc = 3 ∧ r.bus = 2) ∨
    (r.id = 0x45 ∧ r.dlc = 8 ∧ r.bus = 0)

/-- The bytes of the payload that come before its last one. -/
def Rsp.body (r : Rsp) : List Byte := r.data.toList.take (r.dlc.toNat - 1)

/-- The last byte of the payload. -/
def Rsp.lastByte (r : Rsp) : Byte := r.data.toList.getD (r.dlc.toNat - 1) 0

/-- The round-trip invariant of R76: the last byte is the checksum of the id and the bytes before it. -/
abbrev Rsp.RoundTrip (r : Rsp) : Prop := r.lastByte = checksum r.id r.body

/-- The constant payload bits of R80 and the counter-free bits of R79. -/
abbrev Rsp.ConstantBits (r : Rsp) : Prop :=
  (r.id = 0x214 → r.data[0] = 0x01) ∧
    (r.id = 0x45 → r.data[0].extractLsb' 0 2 = 2 ∧ r.data[1] = 0xFF ∧ r.data[2] = 0 ∧ r.data[3] = 0 ∧
      r.data[4] = 0 ∧ r.data[5] = 0) ∧
    (r.id = 0x488 → r.data[2].extractLsb' 7 1 = 0)

/-- A record the block can hold: no reserved status (spec/30_encoding.md R55), nothing past the payload (R52, R80), and one
of the three kinds of R52 to R54 with every unused field 0 (spec/10_state.md R26). -/
structure Rsp.Canonical (r : Rsp) : Prop where
  statusAssigned : r.status ≠ 3
  qualZero : r.qual = 0
  dlcBound : r.dlc.toNat ≤ 8
  padding : ∀ i : Fin 8, r.dlc.toNat ≤ i.val → r.data[i] = 0
  frameKind : r.frame = true →
    r.status = 0 ∧ r.hit = false ∧ r.val = 0 ∧ r.HeaderOk ∧ r.RoundTrip ∧ r.ConstantBits
  otherKinds : r.frame = false → r.id = 0 ∧ r.bus = 0 ∧ r.dlc = 0
  errorKind : r.status ≠ 0 → r.frame = false ∧ r.hit = false ∧ r.val = 0

/-- The invariant of the machine: the response register holds a record of one command, or its reset value. -/
def ResponseCanonical (s : State) : Prop := s.rsp.Canonical

/-! ## Sequences of accepted commands -/

/-- `Execute` (spec/70_reset_and_hazards.md R104) along a sequence of accepted words. -/
def executeAll : List Word → State → Result
  | [], s => .next s
  | w :: ws, s =>
    match execute w s with
    | .next t => executeAll ws t
    | .fault r => .fault r
    | .refused r => .refused r

/-- The responses of a sequence of accepted words, in order. -/
def responses : List Word → State → List Rsp
  | [], _ => []
  | w :: ws, s =>
    match execute w s with
    | .next t => t.rsp :: responses ws t
    | _ => []

/-- The word is an accepted CKINIT. -/
def isCkinit (w : Word) : Bool :=
  match decode w with
  | .ok (.ckinit _) => true
  | _ => false

/-- The byte a word folds into the checksum: its operand if it decodes to CKADD, else nothing. -/
def foldedByte (w : Word) : Option Byte :=
  match decode w with
  | .ok (.ckadd b) => some b
  | _ => none

/-! ## Runs of edges -/

/-- No reset in the next `n` edges. -/
def resetFree : Nat → State → Prop
  | 0, _ => True
  | n + 1, s => (samplePins s).rst = false ∧ ∀ t, step s = .next t → resetFree n t

/-- The host takes no response in the next `n` edges, and does not reset the block. -/
def neverTaken : Nat → State → Prop
  | 0, _ => True
  | n + 1, s =>
    (samplePins s).rst = false ∧ (samplePins s).rspReady = false ∧ ∀ t, step s = .next t → neverTaken n t

/-- The words accepted in the next `n` edges, in order. -/
def acceptedWords : Nat → State → List Word
  | 0, _ => []
  | n + 1, s =>
    (if accepts (samplePins s) s then [(samplePins s).cmdData] else []) ++
      (match step s with
      | .next t => acceptedWords n t
      | _ => [])

/-- The responses the host takes in the next `n` edges, in order. -/
def takenRecords : Nat → State → List Rsp
  | 0, _ => []
  | n + 1, s =>
    (if takes (samplePins s) s then [s.rsp] else []) ++
      (match step s with
      | .next t => takenRecords n t
      | _ => [])

/-- The response held and not yet taken. -/
def heldRecord (s : State) : List Rsp := if rspValid s then [s.rsp] else []

end Sys2Proof.Machine
end

