-- ==== Sys2Proof/Certificates/Slice0/Obligations.lean ====
section
/-! DEFINITION. The statements for the provers, one per obligation of OBLIGATIONS.json, in its order. Each docstring names the
rule of spec/ it formalises. `specFrame`, `specScalar` and `specError` write out R52 to R54 of spec/30_encoding.md
field by field, apart from the model's own records, so that a statement says every field of RSP. -/

open Sys2Proof Sys2Proof.Machine

namespace Sys2Proof.Spec

/-- `Frame(id, payload, bus)` with its length and its eight DATA bytes written out (R52). -/
def specFrame (id : Half) (dlc : BitVec 4) (bus : Byte) (data : Vector Byte 8) : Rsp :=
  { status := 0, frame := true, hit := false, val := 0x00, id := id, qual := 0, bus := bus, dlc := dlc, data := data }

/-- `Scalar(val, hit)` (R53). -/
def specScalar (val : Byte) (hit : Bool) : Rsp :=
  { status := 0, frame := false, hit := hit, val := val, id := 0, qual := 0, bus := 0, dlc := 0,
    data := #v[0, 0, 0, 0, 0, 0, 0, 0] }

/-- `Error(s)` (R54). -/
def specError (s : BitVec 2) : Rsp :=
  { status := s, frame := false, hit := false, val := 0, id := 0, qual := 0, bus := 0, dlc := 0,
    data := #v[0, 0, 0, 0, 0, 0, 0, 0] }

/-- The steering frame of R69 from its three operands: `DATA = [hi, lo, b2, 0x8C + hi + lo + b2]`. -/
def steerFrame (en : Bool) (torque : Half) (ctr : Byte) : Rsp :=
  let hi : Byte := torque.extractLsb' 8 8
  let lo : Byte := torque.extractLsb' 0 8
  let b2 : Byte := (if en then 0x40 else 0x00) + (ctr &&& 0x3F)
  specFrame 0x488 4 2 #v[hi, lo, b2, 0x8C + hi + lo + b2, 0, 0, 0, 0]

/-- The EPB frame of R71: `DATA = [0x01, ctr, 0x17 + ctr]`. -/
def epbFrame (ctr : Byte) : Rsp :=
  specFrame 0x214 3 2 #v[0x01, ctr, 0x17 + ctr, 0, 0, 0, 0, 0]

/-- The stalk frame of R73: `DATA = [4s + 2, 0xFF, 0, 0, 0, 0, ctr, 0x44 + (4s + 2) + ctr]`. -/
def stalkFrame (st : BitVec 6) (ctr : Byte) : Rsp :=
  let b0 : Byte := BitVec.ofNat 8 (4 * st.toNat + 2)
  specFrame 0x45 8 0 #v[b0, 0xFF, 0, 0, 0, 0, ctr, 0x44 + b0 + ctr]

/-- The record of R82 for a key and a counter, with the block's own table. -/
def obscksScalar (key : Half) (ctr : Byte) : Rsp :=
  match (if ctr.toNat ≤ 15 then Config.obsTable key (ctr.extractLsb' 0 4) else none) with
  | some v => specScalar v true
  | none => specScalar 0x00 false

/-- The seed of an id mod 256 (R59, R62). -/
def seedByte (id : Half) : Byte :=
  BitVec.ofNat 8 (((id.extractLsb' 0 8).toNat + (id.extractLsb' 8 8).toNat) % 256)

/-- `(acc + b) mod 256` (R63). -/
def addByte (acc b : Byte) : Byte :=
  BitVec.ofNat 8 ((acc.toNat + b.toNat) % 256)

/-- The commands that neither read nor write `ACC` (R15): the builders and OBSCKS. -/
def leavesAcc : Instr → Bool
  | .steer _ _ _ => true
  | .epb _ => true
  | .stalk _ _ => true
  | .obscks _ _ => true
  | .ckinit _ => false
  | .ckadd _ => false

/-- The three frame builders (R67). -/
def isBuilder : Instr → Bool
  | .steer _ _ _ => true
  | .epb _ => true
  | .stalk _ _ => true
  | .obscks _ _ => false
  | .ckinit _ => false
  | .ckadd _ => false

/-- An unsigned operand `v` as R57 writes it, decimal or hexadecimal; the range is that of `v`'s bits. -/
def writesUnsigned {bits : Nat} (o : Asm.Operand) (v : BitVec bits) : Prop :=
  o = .dec v.toNat ∨ o = .hex v.toNat

/-- `en` is 0 or 1, also spelled `OFF` and `ON` (R57). -/
def writesEnable (o : Asm.Operand) (en : Bool) : Prop :=
  o = (if en then .on else .off) ∨ o = .dec (if en then 1 else 0) ∨ o = .hex (if en then 1 else 0)

/-- `torque` is a decimal from -32768 to 32767, encoded mod 2^16, or a hexadecimal raw bit pattern (R57). -/
def writesTorque (o : Asm.Operand) (t : Half) : Prop :=
  (∃ n : Int, -32768 ≤ n ∧ n ≤ 32767 ∧ o = .dec n ∧ (t.toNat : Int) = n % 2 ^ 16) ∨ o = .hex t.toNat

/-- The codes of the names (R57). That a DN name needs its own code and not the other's is the model's choice
(assumption log 9). -/
def nameCode (codes : Asm.DnCodes) : Asm.StalkName → Option Half
  | .up2nd => some 4
  | .up1st => some 16
  | .dn2nd => codes.dn2nd
  | .dn1st => codes.dn1st

/-- `key` is a 16-bit number or a name that has a code (R57). -/
def writesKey (codes : Asm.DnCodes) (o : Asm.Operand) (key : Half) : Prop :=
  writesUnsigned o key ∨ ∃ name, o = .stalk name ∧ nameCode codes name = some key

/-- `state` is a 6-bit number or a name whose code is at most 63 (R57). -/
def writesState (codes : Asm.DnCodes) (o : Asm.Operand) (st : BitVec 6) : Prop :=
  writesUnsigned o st ∨ ∃ name key, o = .stalk name ∧ nameCode codes name = some key ∧ key.toNat = st.toNat

end Sys2Proof.Spec

open Sys2Proof.Spec

/-! ## Reset -/

/-- R25: the reset values, the complete list. (The ROM is a constant of Config, so nothing can write it.) -/
def Obligations.ResetStateHoldsResetValues : Prop :=
  State.reset.acc = 0x00 ∧ State.reset.pend = false ∧ State.reset.rsp.status = 0 ∧ State.reset.rsp.frame = false ∧
    State.reset.rsp.hit = false ∧ State.reset.rsp.val = 0x00 ∧ State.reset.rsp.id = 0x0000 ∧
    State.reset.rsp.qual = 0x00 ∧ State.reset.rsp.bus = 0x00 ∧ State.reset.rsp.dlc = 0 ∧
    ∀ i : Fin 8, State.reset.rsp.data[i] = 0x00

/-- R100, R101: an edge with `rst = 1` sets the reset values whatever the state, accepts no command, and discards a
held response (it is not taken at that edge and not valid after it). -/
def Obligations.ResetEdgeRestoresResetValues : Prop :=
  ∀ s : State, (samplePins s).rst = true →
    step s = .next { consumePins s with acc := 0x00, pend := false, rsp := specError 0 } ∧
      accepts (samplePins s) s = false ∧ takes (samplePins s) s = false ∧
      ∀ t, step s = .next t → rspValid t = false

/-! ## The step -/

/-- R104: the five cases of an edge, each with the whole next state. The sample is the model's own input
(assumption logs 1 and 2): `consumePins s` is `s` with that sample used up. -/
def Obligations.StepFollowsEdgeRules : Prop :=
  ∀ s : State,
    ((samplePins s).rst = true →
      step s = .next { consumePins s with acc := 0x00, pend := false, rsp := specError 0 }) ∧
    ((samplePins s).rst = false → s.pend = true → (samplePins s).rspReady = true →
      step s = .next { consumePins s with pend := false }) ∧
    ((samplePins s).rst = false → s.pend = true → (samplePins s).rspReady = false →
      step s = .next (consumePins s)) ∧
    ((samplePins s).rst = false → s.pend = false → (samplePins s).cmdValid = true →
      step s = execute (samplePins s).cmdData (consumePins s)) ∧
    ((samplePins s).rst = false → s.pend = false → (samplePins s).cmdValid = false →
      step s = .next (consumePins s)) ∧
    (consumePins s).acc = s.acc ∧ (consumePins s).pend = s.pend ∧ (consumePins s).rsp = s.rsp

/-- R92, R104: an edge that accepts a word runs the instruction the word decodes to, on the state with the input
sample used up; and the step of `withFetchWord` is that of the word it places. -/
def Obligations.StepRunsDecodedCommand : Prop :=
  (∀ (s : State) (i : Instr), accepts (samplePins s) s = true → decode (samplePins s).cmdData = .ok i →
    step s = exec i (consumePins s)) ∧
  (∀ (s : State) (w : Nat) (i : Instr), decodeTableWord 32 w = some i →
    step (s.withFetchWord 32 w) = exec i { s with pend := false })

/-- R87, R91, R104: every edge, from every state and with every input, gives a next state: no fault, no refusal. -/
def Obligations.StepAlwaysGivesNextState : Prop :=
  ∀ s : State, ∃ t, step s = .next t

/-! ## Encoding -/

/-- R42 to R48, R57: decoding the word of an instruction gives the instruction, at every value of every operand. -/
def Obligations.DecodeOfEncodeIsInstruction : Prop :=
  ∀ i : Instr, i.wellFormed = true → decode (encode i) = .ok i

/-- R42 to R50: each word that decodes has one meaning and no bit of it is dropped. -/
def Obligations.EncodeOfDecodeIsWord : Prop :=
  ∀ (w : Word) (i : Instr), decode w = .ok i → encode i = w

/-- R48 against R50 and R92: the decoder accepts a word exactly when a row of the opcode map covers it, and no two rows
cover one word. -/
def Obligations.DecoderAcceptsExactlyOpcodeMap : Prop :=
  (∀ w : Word, (∃ i, decode w = .ok i) ↔ wordWellFormed w = true) ∧
    ∀ (w : Word) (r r' : OpcodeRow), r ∈ opcodeRows → r' ∈ opcodeRows → r.covers w = true → r'.covers w = true →
      r = r'

/-- R43 to R48: words written out from the spec's encoding decode to the instructions they stand for. -/
def Obligations.SpecWordsDecode : Prop :=
  decode 0x180FFFFF = .ok (.steer true 0xFFFF 15) ∧ decode 0x20E90000 = .ok (.epb 233) ∧
    decode 0x30FF003F = .ok (.stalk 63 255) ∧ decode 0x40020010 = .ok (.obscks 16 2) ∧
    decode 0x50000214 = .ok (.ckinit 0x214) ∧ decode 0x60F00000 = .ok (.ckadd 0xF0)

/-! ## Errors -/

/-- R89 (with R49): an OP of 0x0 or 0x7 to 0xF raises ILLEGAL_OP whatever the other bits hold, and keeps `ACC`. -/
def Obligations.IllegalOpcodeGetsStatusOne : Prop :=
  ∀ (w : Word) (s : State),
    (w.extractLsb' 28 4 = 0 ∨ 7 ≤ (w.extractLsb' 28 4).toNat) →
      execute w s = .next { s with rsp := specError 1, pend := true }

/-- R90: for each command, exactly when RSVD_FIELD is raised, from the bits of the word. -/
def Obligations.ReservedBitsGetStatusTwo : Prop :=
  ∀ (w : Word) (s : State),
    let raises := execute w s = .next { s with rsp := specError 2, pend := true }
    let e := w.extractLsb' 27 1
    let rsv := w.extractLsb' 24 3
    let ctr := w.extractLsb' 16 8
    (w.extractLsb' 28 4 = 1 → (raises ↔ rsv ≠ 0)) ∧
    (w.extractLsb' 28 4 = 2 → (raises ↔ e ≠ 0 ∨ rsv ≠ 0 ∨ w.extractLsb' 0 16 ≠ 0)) ∧
    (w.extractLsb' 28 4 = 3 → (raises ↔ e ≠ 0 ∨ rsv ≠ 0 ∨ w.extractLsb' 6 10 ≠ 0)) ∧
    (w.extractLsb' 28 4 = 4 → (raises ↔ e ≠ 0 ∨ rsv ≠ 0)) ∧
    (w.extractLsb' 28 4 = 5 → (raises ↔ e ≠ 0 ∨ rsv ≠ 0 ∨ ctr ≠ 0)) ∧
    (w.extractLsb' 28 4 = 6 → (raises ↔ e ≠ 0 ∨ rsv ≠ 0 ∨ w.extractLsb' 0 16 ≠ 0))

/-- R88, R91: a command that raises an error answers `Error(status)`, sets `PEND` and changes nothing else; whatever word
is accepted next then does exactly what it would have done without it. -/
def Obligations.ErrorOnlyWritesResponse : Prop :=
  ∀ (w : Word) (s : State),
    (decode w = .error .illegalOp → execute w s = .next { s with rsp := specError 1, pend := true }) ∧
    (decode w = .error .reservedField → execute w s = .next { s with rsp := specError 2, pend := true }) ∧
    ∀ (e : DecodeError) (w' : Word), decode w = .error e →
      ∃ t u, execute w s = .next t ∧ execute w' t = .next u ∧ execute w' s = .next u

/-! ## What each instruction does: the whole next state -/

/-- R69: STEER writes its frame and sets `PEND`; everything else, `ACC` among it, is unchanged. -/
def Obligations.SteerBuildsFrame : Prop :=
  ∀ (en : Bool) (torque : Half) (ctr : Byte) (s : State),
    exec (.steer en torque ctr) s = .next { s with rsp := steerFrame en torque ctr, pend := true }

/-- R71: EPB. -/
def Obligations.EpbBuildsFrame : Prop :=
  ∀ (ctr : Byte) (s : State), exec (.epb ctr) s = .next { s with rsp := epbFrame ctr, pend := true }

/-- R73: STALK. -/
def Obligations.StalkBuildsFrame : Prop :=
  ∀ (st : BitVec 6) (ctr : Byte) (s : State),
    exec (.stalk st ctr) s = .next { s with rsp := stalkFrame st ctr, pend := true }

/-- R82: OBSCKS. -/
def Obligations.ObscksAnswersLookup : Prop :=
  ∀ (key : Half) (ctr : Byte) (s : State),
    exec (.obscks key ctr) s = .next { s with rsp := obscksScalar key ctr, pend := true }

/-- R62: CKINIT. The old `ACC` is overwritten and never read. -/
def Obligations.CkinitSetsAccumulator : Prop :=
  ∀ (id : Half) (s : State),
    exec (.ckinit id) s = .next { s with acc := seedByte id, rsp := specScalar (seedByte id) false, pend := true }

/-- R63: CKADD. -/
def Obligations.CkaddAddsByte : Prop :=
  ∀ (b : Byte) (s : State),
    exec (.ckadd b) s =
      .next { s with acc := addByte s.acc b, rsp := specScalar (addByte s.acc b) false, pend := true }

/-! ## The same from the bits of an accepted word, errors included -/

/-- R69 (with R42 to R50): any accepted word with `OP = 0x1`. -/
def Obligations.SteerWordMeaning : Prop :=
  ∀ (w : Word) (s : State), w.extractLsb' 28 4 = 1 →
    execute w s = .next { s with
      rsp := if w.extractLsb' 24 3 ≠ 0 then specError 2
        else steerFrame (w.extractLsb' 27 1 == 1) (w.extractLsb' 0 16) (w.extractLsb' 16 8)
      pend := true }

/-- R71: any accepted word with `OP = 0x2`. -/
def Obligations.EpbWordMeaning : Prop :=
  ∀ (w : Word) (s : State), w.extractLsb' 28 4 = 2 →
    execute w s = .next { s with
      rsp := if w.extractLsb' 24 4 ≠ 0 ∨ w.extractLsb' 0 16 ≠ 0 then specError 2 else epbFrame (w.extractLsb' 16 8)
      pend := true }

/-- R73: any accepted word with `OP = 0x3`, so every `stalk_state` of 64 or more is turned away. -/
def Obligations.StalkWordMeaning : Prop :=
  ∀ (w : Word) (s : State), w.extractLsb' 28 4 = 3 →
    execute w s = .next { s with
      rsp := if w.extractLsb' 24 4 ≠ 0 ∨ 64 ≤ (w.extractLsb' 0 16).toNat then specError 2
        else stalkFrame (w.extractLsb' 0 6) (w.extractLsb' 16 8)
      pend := true }

/-- R82: any accepted word with `OP = 0x4`. -/
def Obligations.ObscksWordMeaning : Prop :=
  ∀ (w : Word) (s : State), w.extractLsb' 28 4 = 4 →
    execute w s = .next { s with
      rsp := if w.extractLsb' 24 4 ≠ 0 then specError 2 else obscksScalar (w.extractLsb' 0 16) (w.extractLsb' 16 8)
      pend := true }

/-- R62: any accepted word with `OP = 0x5`; `ACC` is kept when a reserved bit is 1. -/
def Obligations.CkinitWordMeaning : Prop :=
  ∀ (w : Word) (s : State), w.extractLsb' 28 4 = 5 →
    execute w s =
      if w.extractLsb' 16 12 ≠ 0 then .next { s with rsp := specError 2, pend := true }
      else .next { s with
        acc := seedByte (w.extractLsb' 0 16)
        rsp := specScalar (seedByte (w.extractLsb' 0 16)) false
        pend := true }

/-- R63: any accepted word with `OP = 0x6`; when a reserved bit is 1 no byte is folded in. -/
def Obligations.CkaddWordMeaning : Prop :=
  ∀ (w : Word) (s : State), w.extractLsb' 28 4 = 6 →
    execute w s =
      if w.extractLsb' 24 4 ≠ 0 ∨ w.extractLsb' 0 16 ≠ 0 then .next { s with rsp := specError 2, pend := true }
      else .next { s with
        acc := addByte s.acc (w.extractLsb' 16 8)
        rsp := specScalar (addByte s.acc (w.extractLsb' 16 8)) false
        pend := true }

/-! ## Frames -/

/-- R76, R77: id, length, bus and qualifier of every frame are fixed per message type, no operand changes them; and its
last byte is the checksum of its id and the bytes before it. -/
def Obligations.FrameHeaderFixedAndChecksummed : Prop :=
  ∀ (i : Instr) (s : State), isBuilder i = true →
    ∃ t, exec i s = .next t ∧ t.rsp.frame = true ∧ t.rsp.qual = 0 ∧
      (∀ en torque ctr, i = .steer en torque ctr → t.rsp.id = 0x488 ∧ t.rsp.dlc = 4 ∧ t.rsp.bus = 2) ∧
      (∀ ctr, i = .epb ctr → t.rsp.id = 0x214 ∧ t.rsp.dlc = 3 ∧ t.rsp.bus = 2) ∧
      (∀ st ctr, i = .stalk st ctr → t.rsp.id = 0x045 ∧ t.rsp.dlc = 8 ∧ t.rsp.bus = 0) ∧
      t.rsp.data.toList.getD (t.rsp.dlc.toNat - 1) 0 =
        checksum t.rsp.id (t.rsp.data.toList.take (t.rsp.dlc.toNat - 1))

/-- R79: where each message type carries the counter, and what the rest of that byte is. -/
def Obligations.CounterStandsAtItsPosition : Prop :=
  ∀ s : State,
    (∀ (en : Bool) (torque : Half) (ctr : Byte), ∃ t, exec (.steer en torque ctr) s = .next t ∧
      t.rsp.data[2].extractLsb' 0 6 = ctr.extractLsb' 0 6 ∧
      t.rsp.data[2].extractLsb' 6 1 = BitVec.ofBool en ∧ t.rsp.data[2].extractLsb' 7 1 = 0) ∧
    (∀ ctr : Byte, ∃ t, exec (.epb ctr) s = .next t ∧ t.rsp.data[1] = ctr) ∧
    (∀ (st : BitVec 6) (ctr : Byte), ∃ t, exec (.stalk st ctr) s = .next t ∧ t.rsp.data[6] = ctr)

/-- R80: the payload bits that depend on no operand, and the bytes at or past `DLC`. -/
def Obligations.ConstantPayloadBits : Prop :=
  ∀ (i : Instr) (s : State), isBuilder i = true →
    ∃ t, exec i s = .next t ∧
      (∀ ctr, i = .epb ctr → t.rsp.data[0] = 0x01) ∧
      (∀ st ctr, i = .stalk st ctr → t.rsp.data[0].extractLsb' 0 2 = 0b10 ∧ t.rsp.data[1] = 0xFF ∧
        t.rsp.data[2] = 0x00 ∧ t.rsp.data[3] = 0x00 ∧ t.rsp.data[4] = 0x00 ∧ t.rsp.data[5] = 0x00) ∧
      (∀ en torque ctr, i = .steer en torque ctr → t.rsp.data[2].extractLsb' 7 1 = 0) ∧
      ∀ k : Fin 8, t.rsp.dlc.toNat ≤ k.val → t.rsp.data[k] = 0x00

/-- R32, R47, R68, R70: the torque is big-endian in the payload, its high byte at the lower index. The last clause, that
the two bytes read together are the torque with its sign, reads them as two's complement, which is PRESUMED (assumption
log 7; the spec's own G2), so this statement is derived. -/
def Obligations.TorqueIsBigEndian : Prop :=
  ∀ (en : Bool) (torque : Half) (ctr : Byte) (s : State),
    ∃ t, exec (.steer en torque ctr) s = .next t ∧ t.rsp.data[0] = torque.extractLsb' 8 8 ∧
      t.rsp.data[1] = torque.extractLsb' 0 8 ∧ (t.rsp.data[0] ++ t.rsp.data[1]).toInt = torque.toInt

/-- R46, R70: `CTR[7:6]` of STEER has no effect on the next state. -/
def Obligations.SteerIgnoresHighCounterBits : Prop :=
  ∀ (en : Bool) (torque : Half) (ctr ctr' : Byte) (s : State), ctr.extractLsb' 0 6 = ctr'.extractLsb' 0 6 →
    ∃ t, exec (.steer en torque ctr) s = .next t ∧ exec (.steer en torque ctr') s = .next t

/-! ## The checksum -/

/-- R60: the closed form, its order-independence, and the source's instance for id 0x488. -/
def Obligations.ChecksumClosedForm : Prop :=
  (∀ (id : Half) (bytes : List Byte),
    (checksum id bytes).toNat =
      ((id.extractLsb' 0 8).toNat + (id.extractLsb' 8 8).toNat + (bytes.map (·.toNat)).sum) % 256) ∧
  (∀ (id : Half) (bytes bytes' : List Byte), bytes.Perm bytes' → checksum id bytes = checksum id bytes') ∧
  (∀ bytes : List Byte, (checksum 0x488 bytes).toNat = (0x88 + 0x04 + (bytes.map (·.toNat)).sum) % 256)

/-- R64: after CKINIT and any accepted words without a further CKINIT, `ACC` is the checksum of the bytes of the CKADDs
among them (a word that ends in an error folds nothing in, other commands disturb nothing), and the response of the
CKINIT or CKADD that comes last is that value. -/
def Obligations.StreamingComputesChecksum : Prop :=
  ∀ (id : Half) (ws : List Word) (s : State), (∀ w ∈ ws, isCkinit w = false) →
    (∃ t, executeAll (encode (.ckinit id) :: ws) s = .next t ∧ t.acc = checksum id (ws.filterMap foldedByte)) ∧
    (∃ t, executeAll [encode (.ckinit id)] s = .next t ∧ t.rsp = specScalar (checksum id []) false) ∧
    (∀ b, ∃ t, executeAll (encode (.ckinit id) :: (ws ++ [encode (.ckadd b)])) s = .next t ∧
      t.rsp = specScalar (checksum id (ws.filterMap foldedByte ++ [b])) false)

/-- R58: `CKSUM id, b1, ..., bn` is CKINIT and n CKADDs whose last response's VAL is the checksum; `NOP` is rejected
whatever its operands. -/
def Obligations.CksumExpandsToStream : Prop :=
  (∀ (id : Half) (bytes : List Byte) (s : State),
    Asm.expand (.cksum id bytes) = encode (.ckinit id) :: bytes.map (fun b => encode (.ckadd b)) ∧
      ∃ t, executeAll (Asm.expand (.cksum id bytes)) s = .next t ∧ t.rsp.val = checksum id bytes) ∧
  (∀ (codes : Asm.DnCodes) (ops : List Asm.Operand),
    Asm.statement codes ['n', 'o', 'p'] ops = .error .unknownMnemonic) ∧
  (∀ codes : Asm.DnCodes, Asm.assembleLine codes ['N', 'O', 'P'] = .error .unknownMnemonic)

/-! ## The lookup -/

/-- R7 (items 1 and 2), R8: the four codes are pairwise distinct and the table is admissible, whatever the open
parameters are. -/
def Obligations.ParametersAreAdmissible : Prop :=
  [Config.up2nd, Config.stalkCodeDn2nd, Config.up1st, Config.stalkCodeDn1st].Nodup ∧
    Config.ObsAdmissible Config.stalkCodeDn2nd Config.stalkCodeDn1st Config.obsTable

/-- R84: the misses that are fixed, each `Scalar(0x00, 0)`. -/
def Obligations.ObscksFixedMisses : Prop :=
  ∀ (key : Half) (ctr : Byte) (s : State),
    (key ≠ 4 ∧ key ≠ Config.stalkCodeDn2nd ∧ key ≠ 16 ∧ key ≠ Config.stalkCodeDn1st) ∨ 15 < ctr.toNat ∨
        (key = 16 ∧ ctr = 2) ∨ Config.obsTable key (ctr.extractLsb' 0 4) = none →
      exec (.obscks key ctr) s = .next { s with rsp := specScalar 0x00 false, pend := true }

/-- R83, for any ChecksumTable at all: `HIT` is 1 exactly when an observation is recorded, `VAL` is then the recorded
byte (0x00 included), and without one `VAL` is the sentinel 0. -/
def Obligations.HitBitMarksRecordedEntry : Prop :=
  ∀ (table : Config.ObsTable) (key : Half) (ctr : Byte),
    let r := lookupRecord (observedEntry table key ctr)
    (r.hit = true ↔ ctr.toNat ≤ 15 ∧ (table key (ctr.extractLsb' 0 4)).isSome = true) ∧
      (r.hit = true → table key (ctr.extractLsb' 0 4) = some r.val) ∧ (r.hit = false → r.val = 0x00)

/-- R7 item 3, as the named premise it must be: with a table whose 2ND rows are complete, a lookup of UP_2ND or DN_2ND
with a counter of at most 15 hits. -/
def Obligations.CompleteRowsAlwaysHit : Prop :=
  ∀ (dn2nd : Half) (table : Config.ObsTable), Config.ObsTable2ndComplete dn2nd table →
    ∀ ctr : Byte, ctr.toNat ≤ 15 →
      (lookupRecord (observedEntry table Config.up2nd ctr)).hit = true ∧
        (lookupRecord (observedEntry table dn2nd ctr)).hit = true

/-! ## Whole-machine rules -/

/-- R15: `ACC` changes at an edge only by reset or by an accepted CKINIT or CKADD. -/
def Obligations.AccumulatorWrittenOnlyByChecksumCommands : Prop :=
  ∀ s : State, ∃ t, step s = .next t ∧
    (t.acc ≠ s.acc →
      (samplePins s).rst = true ∨
        (accepts (samplePins s) s = true ∧
          ((∃ id, decode (samplePins s).cmdData = .ok (.ckinit id)) ∨
            ∃ b, decode (samplePins s).cmdData = .ok (.ckadd b))))

/-- R16: when `PEND` is set, when it is cleared, and its reset value. -/
def Obligations.PendingBitFollowsHandshake : Prop :=
  State.reset.pend = false ∧
  ∀ s : State, ∃ t, step s = .next t ∧
    ((samplePins s).rst = true → t.pend = false) ∧
    (accepts (samplePins s) s = true → t.pend = true) ∧
    (s.pend = true → (samplePins s).rspReady = true → t.pend = false) ∧
    ((samplePins s).rst = false → accepts (samplePins s) s = false → takes (samplePins s) s = false →
      t.pend = s.pend)

/-- R11, R41, R65, R85: a builder or OBSCKS gets the same response after any sequence of other commands as alone, and
leaves `ACC` as it finds it. -/
def Obligations.InterleavingLeavesBuildersAlone : Prop :=
  ∀ (i : Instr) (others : List Word) (s : State), leavesAcc i = true →
    ∃ t u v, executeAll others s = .next t ∧ execute (encode i) t = .next u ∧ execute (encode i) s = .next v ∧
      u.rsp = v.rsp ∧ u.acc = t.acc ∧ v.acc = s.acc

/-- R26: an accepted word, error or not, writes every field of `RSP`: the record depends on the word and `ACC` alone,
not on what `RSP` held, and the fields its kind has no use for are 0. -/
def Obligations.AcceptedWordWritesWholeResponse : Prop :=
  ∀ (w : Word) (s s' : State), s.acc = s'.acc →
    ∃ t t', execute w s = .next t ∧ execute w s' = .next t' ∧ t.rsp = t'.rsp ∧ t.acc = t'.acc ∧
      t.rsp.qual = 0 ∧
      (t.rsp.frame = true → t.rsp.status = 0 ∧ t.rsp.hit = false ∧ t.rsp.val = 0) ∧
      (t.rsp.frame = false →
        t.rsp.id = 0 ∧ t.rsp.bus = 0 ∧ t.rsp.dlc = 0 ∧ ∀ k : Fin 8, t.rsp.data[k] = 0x00) ∧
      (t.rsp.status ≠ 0 → t.rsp = specError t.rsp.status)

/-- R55: what each value of STATUS means, that 3 is never written, and that STATUS and FRAME alone tell the kind of
record; `DLC != 0` exactly when `FRAME = 1`. -/
def Obligations.StatusAndFrameTellRecordKind : Prop :=
  ∀ (w : Word) (s : State), ∃ t, execute w s = .next t ∧
    (t.rsp.status = 0 ↔ ∃ i, decode w = .ok i) ∧
    (t.rsp.status = 1 ↔ decode w = .error .illegalOp) ∧
    (t.rsp.status = 2 ↔ decode w = .error .reservedField) ∧
    t.rsp.status ≠ 3 ∧
    (t.rsp.isFrame = true ↔ ∃ i, decode w = .ok i ∧ isBuilder i = true) ∧
    (t.rsp.isScalar = true ↔ ∃ i, decode w = .ok i ∧ isBuilder i = false) ∧
    (t.rsp.isError = true ↔ ∃ e, decode w = .error e) ∧
    (t.rsp.dlc ≠ 0 ↔ t.rsp.frame = true) ∧
    (t.rsp.frame = true → t.rsp.dlc = 3 ∨ t.rsp.dlc = 4 ∨ t.rsp.dlc = 8)

/-- R109: `rsp_data` changes only at an edge that accepts a command or resets; so it is stable while valid and still
shows the last record after it is taken. `cmd_data` matters only at an accepting edge. -/
def Obligations.ResponseDataIsStable : Prop :=
  (∀ s : State, ∃ t, step s = .next t ∧
    ((samplePins s).rst = false → accepts (samplePins s) s = false → rspData t = rspData s)) ∧
  (∀ (s : State) (p : Pins) (ps : List Pins) (w : Word), accepts p s = false →
    step { s with pins := { p with cmdData := w } :: ps } = step { s with pins := p :: ps })

/-- R110: inputs at edges that do not use them are ignored; a command withdrawn before acceptance leaves nothing. -/
def Obligations.UnusedInputsAreIgnored : Prop :=
  (∀ (s : State) (p : Pins) (ps : List Pins) (v : Bool) (w : Word), s.pend = true ∨ p.rst = true →
    step { s with pins := { p with cmdValid := v, cmdData := w } :: ps } = step { s with pins := p :: ps }) ∧
  (∀ (s : State) (p : Pins) (ps : List Pins) (r : Bool), s.pend = false →
    step { s with pins := { p with rspReady := r } :: ps } = step { s with pins := p :: ps }) ∧
  (∀ (s : State) (p : Pins) (ps : List Pins), s.pend = false → p.rst = false → p.cmdValid = false →
    step { s with pins := p :: ps } = .next { s with pins := ps })

/-- R105: a response is valid from the accepting edge on; while it is held nothing can be accepted; the edge that takes
it makes the block ready for the edge after. -/
def Obligations.AtMostOneCommandEveryTwoEdges : Prop :=
  ∀ s : State, accepts (samplePins s) s = true →
    ∃ t, step s = .next t ∧ rspValid t = true ∧ (∀ p, accepts p t = false) ∧
      (takes (samplePins t) t = true → ∃ u, step t = .next u ∧ u.rsp = t.rsp ∧ cmdReady false u = true)

/-- R108: while the host takes no response and does not reset the block, a held response stays held, unchanged, for any
number of edges, and no command is accepted. -/
def Obligations.UntakenResponseStallsBlock : Prop :=
  ∀ (n : Nat) (s : State), s.pend = true → neverTaken n s →
    ∃ t, Host.Core.run Sys2Proof.core n s = .next t ∧ t.pend = true ∧ t.acc = s.acc ∧ t.rsp = s.rsp ∧
      acceptedWords n s = [] ∧ ∀ rst, cmdReady rst t = false

/-- R37, R38, R104: along any run of edges without reset, the responses taken by the host, then the one still held, are
the response held at the start followed by one response for each accepted word, in the order of acceptance, as the
transaction-level `Execute` gives them; `ACC` ends as it leaves it. An edge with reset discards a held response. -/
def Obligations.EdgesRefineTransactions : Prop :=
  (∀ (n : Nat) (s : State), resetFree n s →
    ∃ t u, Host.Core.run Sys2Proof.core n s = .next t ∧ executeAll (acceptedWords n s) s = .next u ∧
      t.acc = u.acc ∧
      (responses (acceptedWords n s) s).length = (acceptedWords n s).length ∧
      takenRecords n s ++ heldRecord t = heldRecord s ++ responses (acceptedWords n s) s) ∧
  (∀ s : State, (samplePins s).rst = true →
    ∃ t, step s = .next t ∧ takes (samplePins s) s = false ∧ heldRecord t = [])

/-- R17, R26, R52 to R55, R76, R77, R80: every step from a state whose response register holds a canonical record leaves
one there (`ResponseCanonical`, defined in Safety.lean). -/
def Obligations.StepKeepsCanonicalResponse : Prop :=
  ∀ s t : State, ResponseCanonical s → step s = .next t → ResponseCanonical t

/-- The invariant holds right after reset. -/
def Obligations.ResetStateIsCanonical : Prop :=
  ResponseCanonical State.reset

/-! ## The output ports -/

/-- R22, R51: the output ports are functions of the state and `rst` as given, and every field of `RSP` has its place in
the 128 bits of `rsp_data`. -/
def Obligations.OutputPortsShowState : Prop :=
  (∀ (rst : Bool) (s : State),
    (cmdReady rst s = true ↔ s.pend = false ∧ rst = false) ∧ rspValid s = s.pend ∧ rspData s = packRsp s.rsp) ∧
  ∀ r : Rsp,
    (packRsp r).extractLsb' 120 8 = r.data[0] ∧ (packRsp r).extractLsb' 112 8 = r.data[1] ∧
      (packRsp r).extractLsb' 104 8 = r.data[2] ∧ (packRsp r).extractLsb' 96 8 = r.data[3] ∧
      (packRsp r).extractLsb' 88 8 = r.data[4] ∧ (packRsp r).extractLsb' 80 8 = r.data[5] ∧
      (packRsp r).extractLsb' 72 8 = r.data[6] ∧ (packRsp r).extractLsb' 64 8 = r.data[7] ∧
      (packRsp r).extractLsb' 48 16 = r.id ∧ (packRsp r).extractLsb' 40 8 = r.qual ∧
      (packRsp r).extractLsb' 32 8 = r.bus ∧ (packRsp r).extractLsb' 28 4 = r.dlc ∧
      (packRsp r).extractLsb' 20 8 = r.val ∧ (packRsp r).extractLsb' 19 1 = BitVec.ofBool r.hit ∧
      (packRsp r).extractLsb' 18 1 = BitVec.ofBool r.frame ∧ (packRsp r).extractLsb' 16 2 = r.status ∧
      (packRsp r).extractLsb' 0 16 = 0

/-! ## The assembler -/

/-- R57: the operands of each kind, and of each command, that the assembler takes. Outside its range an operand is
rejected, not reduced. First each kind: a torque; an unsigned operand of any width; `en`; a name as `key` and as `state`.
Then each command: the lines it takes are those whose operands are written as its row of R57 says, and no others. That a
DN name needs its own code alone, and that a line with another number of operands is rejected, is the model's choice
(assumption log 9). -/
def Obligations.AssemblerRejectsOutOfRange : Prop :=
  (∀ n : Int, if -32768 ≤ n ∧ n ≤ 32767
    then ∃ t, Asm.torqueOperand (.dec n) = .ok t ∧ (t.toNat : Int) = n % 2 ^ 16 ∧ t.toInt = n
    else Asm.torqueOperand (.dec n) = .error .outOfRange) ∧
  (∀ n : Nat, if n ≤ 0xFFFF
    then ∃ t, Asm.torqueOperand (.hex n) = .ok t ∧ t.toNat = n
    else Asm.torqueOperand (.hex n) = .error .outOfRange) ∧
  (∀ (bits : Nat) (n : Int), if 0 ≤ n ∧ n < 2 ^ bits
    then ∃ v, Asm.unsignedOperand bits (.dec n) = .ok v ∧ (v.toNat : Int) = n
    else Asm.unsignedOperand bits (.dec n) = .error .outOfRange) ∧
  (∀ bits n : Nat, if n < 2 ^ bits
    then ∃ v, Asm.unsignedOperand bits (.hex n) = .ok v ∧ v.toNat = n
    else Asm.unsignedOperand bits (.hex n) = .error .outOfRange) ∧
  (Asm.enableOperand .off = .ok false ∧ Asm.enableOperand .on = .ok true ∧
    (∀ n : Int, Asm.enableOperand (.dec n) =
      if n = 0 then .ok false else if n = 1 then .ok true else .error .outOfRange) ∧
    (∀ n : Nat, Asm.enableOperand (.hex n) =
      if n = 0 then .ok false else if n = 1 then .ok true else .error .outOfRange) ∧
    ∀ name, Asm.enableOperand (.stalk name) = .error .badOperand) ∧
  (∀ (codes : Asm.DnCodes) (name : Asm.StalkName), Asm.stalkCode codes name = nameCode codes name ∧
    match nameCode codes name with
    | none => Asm.keyOperand codes (.stalk name) = .error .badOperand ∧
        Asm.stateOperand codes (.stalk name) = .error .badOperand
    | some k => Asm.keyOperand codes (.stalk name) = .ok k ∧
        if k.toNat ≤ 63 then ∃ v, Asm.stateOperand codes (.stalk name) = .ok v ∧ v.toNat = k.toNat
        else Asm.stateOperand codes (.stalk name) = .error .outOfRange) ∧
  ∀ (codes : Asm.DnCodes) (ops : List Asm.Operand) (st : Asm.Stmt),
    (Asm.statement codes ['s', 't', 'e', 'e', 'r'] ops = .ok st ↔
      ∃ o₁ o₂ o₃ en torque, ∃ ctr : Byte, ops = [o₁, o₂, o₃] ∧ writesEnable o₁ en ∧ writesTorque o₂ torque ∧
        writesUnsigned o₃ ctr ∧ st = .command (.steer en torque ctr)) ∧
    (Asm.statement codes ['e', 'p', 'b'] ops = .ok st ↔
      ∃ o, ∃ ctr : Byte, ops = [o] ∧ writesUnsigned o ctr ∧ st = .command (.epb ctr)) ∧
    (Asm.statement codes ['s', 't', 'a', 'l', 'k'] ops = .ok st ↔
      ∃ o₁ o₂ state, ∃ ctr : Byte, ops = [o₁, o₂] ∧ writesState codes o₁ state ∧ writesUnsigned o₂ ctr ∧
        st = .command (.stalk state ctr)) ∧
    (Asm.statement codes ['o', 'b', 's', 'c', 'k', 's'] ops = .ok st ↔
      ∃ o₁ o₂ key, ∃ ctr : Byte, ops = [o₁, o₂] ∧ writesKey codes o₁ key ∧ writesUnsigned o₂ ctr ∧
        st = .command (.obscks key ctr)) ∧
    (Asm.statement codes ['c', 'k', 'i', 'n', 'i', 't'] ops = .ok st ↔
      ∃ o, ∃ id : Half, ops = [o] ∧ writesUnsigned o id ∧ st = .command (.ckinit id)) ∧
    (Asm.statement codes ['c', 'k', 'a', 'd', 'd'] ops = .ok st ↔
      ∃ o, ∃ b : Byte, ops = [o] ∧ writesUnsigned o b ∧ st = .command (.ckadd b)) ∧
    (Asm.statement codes ['.', 'w', 'o', 'r', 'd'] ops = .ok st ↔
      ∃ o, ∃ w : Word, ops = [o] ∧ writesUnsigned o w ∧ st = .word w) ∧
    (Asm.statement codes ['c', 'k', 's', 'u', 'm'] ops = .ok st ↔
      ∃ o os, ∃ (id : Half) (bytes : List Byte), ops = o :: os ∧ writesUnsigned o id ∧
        List.Forall₂ writesUnsigned os bytes ∧ st = .cksum id bytes)

/-- R57: every command has a spelling with decimal operands (`OFF` or `ON` for `en`) that stands for it, and a `.word`
line stands for its word. -/
def Obligations.AssemblerSpellsEveryCommand : Prop :=
  ∀ (codes : Asm.DnCodes) (en : Bool) (half : Half) (st : BitVec 6) (b : Byte) (w : Word),
    Asm.statement codes ['s', 't', 'e', 'e', 'r'] [if en then .on else .off, .dec half.toInt, .dec b.toNat] =
      .ok (.command (.steer en half b)) ∧
    Asm.statement codes ['e', 'p', 'b'] [.dec b.toNat] = .ok (.command (.epb b)) ∧
    Asm.statement codes ['s', 't', 'a', 'l', 'k'] [.dec st.toNat, .dec b.toNat] = .ok (.command (.stalk st b)) ∧
    Asm.statement codes ['o', 'b', 's', 'c', 'k', 's'] [.dec half.toNat, .dec b.toNat] =
      .ok (.command (.obscks half b)) ∧
    Asm.statement codes ['c', 'k', 'i', 'n', 'i', 't'] [.dec half.toNat] = .ok (.command (.ckinit half)) ∧
    Asm.statement codes ['c', 'k', 'a', 'd', 'd'] [.dec b.toNat] = .ok (.command (.ckadd b)) ∧
    Asm.statement codes ['.', 'w', 'o', 'r', 'd'] [.dec w.toNat] = .ok (.word w)
end

