-- ==== Sys2Proof/Laws/Assembler.lean ====
section
/-! SUPPORT. One lemma per operand parser of the assembler (spec/30_encoding.md R57): exactly which operands it takes, and
as what. A proof about lines cites these and does not unfold a parser. -/

namespace Sys2Proof.Laws

open Sys2Proof.Machine

/-- An integer in the range of `bits` bits is the number of one bit vector. -/
theorem ofInt_eq_iff {bits : Nat} {n : Int} (h : 0 ≤ n ∧ n < 2 ^ bits) (v : BitVec bits) :
    BitVec.ofInt bits n = v ↔ n = v.toNat := by
  have hpow : ((2 ^ bits : Nat) : Int) = 2 ^ bits := by push_cast; rfl
  have hn : ((BitVec.ofInt bits n).toNat : Int) = n := by
    rw [BitVec.toNat_ofInt, hpow, Int.emod_eq_of_lt h.1 h.2]
    omega
  rw [← BitVec.toNat_inj]
  omega

theorem unsignedOperand_ok_iff {bits : Nat} {o : Asm.Operand} {v : BitVec bits} :
    Asm.unsignedOperand bits o = .ok v ↔ o = .dec v.toNat ∨ o = .hex v.toNat := by
  have hv := v.isLt
  cases o with
  | dec n =>
    simp only [Asm.unsignedOperand, Asm.Operand.dec.injEq, reduceCtorEq, or_false]
    split
    · rename_i h
      rw [Except.ok.injEq, ofInt_eq_iff h]
    · rename_i h
      have hv' : (v.toNat : Int) < 2 ^ bits := by exact_mod_cast hv
      refine ⟨(nomatch ·), fun h' => absurd ⟨by omega, ?_⟩ h⟩
      rwa [h']
  | hex n =>
    simp only [Asm.unsignedOperand, Asm.Operand.hex.injEq, reduceCtorEq, false_or]
    split
    · rename_i h
      rw [Except.ok.injEq, ← BitVec.toNat_inj, BitVec.toNat_ofNat, Nat.mod_eq_of_lt h]
    · exact ⟨(nomatch ·), fun h' => by omega⟩
  | off => simp [Asm.unsignedOperand]
  | on => simp [Asm.unsignedOperand]
  | stalk name => simp [Asm.unsignedOperand]

theorem torqueOperand_ok_iff {o : Asm.Operand} {t : Half} :
    Asm.torqueOperand o = .ok t ↔ o = .dec t.toInt ∨ o = .hex t.toNat := by
  cases o with
  | dec n =>
    have h1 := BitVec.le_toInt t
    have h2 := BitVec.toInt_lt (x := t)
    simp only [Asm.torqueOperand, Asm.Operand.dec.injEq, reduceCtorEq, or_false]
    split
    · rw [Except.ok.injEq, ← BitVec.toInt_inj, BitVec.toInt_ofInt]
      have : n.bmod (2 ^ 16) = n := by simp only [Int.bmod]; omega
      rw [this]
    · exact ⟨(nomatch ·), fun h' => by norm_num at h1 h2; omega⟩
  | hex n => exact unsignedOperand_ok_iff (bits := 16) (o := .hex n) |>.trans (by simp)
  | off => simp [Asm.torqueOperand]
  | on => simp [Asm.torqueOperand]
  | stalk name => simp [Asm.torqueOperand]

theorem enableOperand_ok_iff {o : Asm.Operand} {en : Bool} :
    Asm.enableOperand o = .ok en ↔
      o = (if en then .on else .off) ∨ o = .dec en.toNat ∨ o = .hex en.toNat := by
  have key : ∀ o, (∀ r, Asm.unsignedOperand 1 o = r → Asm.enableOperand o =
      match r with | .ok b => .ok (b == 1) | .error e => .error e) →
      (Asm.enableOperand o = .ok en ↔ o = .dec en.toNat ∨ o = .hex en.toNat) := by
    intro o ho
    have hb : ∀ b : BitVec 1, (b == 1) = en ↔ b = BitVec.ofBool en := by cases en <;> decide
    have hen : (BitVec.ofBool en).toNat = en.toNat := by cases en <;> rfl
    rw [← hen, ← unsignedOperand_ok_iff, ho _ rfl]
    cases Asm.unsignedOperand 1 o with
    | ok b => simp only [Except.ok.injEq, hb]
    | error e => simp
  cases o with
  | off => cases en <;> simp [Asm.enableOperand]
  | on => cases en <;> simp [Asm.enableOperand]
  | dec n => cases en <;> simpa using key (.dec n) fun _ h => by rw [← h]; rfl
  | hex n => cases en <;> simpa using key (.hex n) fun _ h => by rw [← h]; rfl
  | stalk name => cases en <;> simpa using key (.stalk name) fun _ h => by rw [← h]; rfl

theorem keyOperand_ok_iff {codes : Asm.DnCodes} {o : Asm.Operand} {key : Half} :
    Asm.keyOperand codes o = .ok key ↔
      (o = .dec key.toNat ∨ o = .hex key.toNat) ∨ ∃ name, o = .stalk name ∧ Asm.stalkCode codes name = some key := by
  cases o with
  | stalk name => cases h : Asm.stalkCode codes name <;> simp [Asm.keyOperand, h]
  | dec n => simpa [Asm.keyOperand] using unsignedOperand_ok_iff (o := .dec n) (v := key)
  | hex n => simpa [Asm.keyOperand] using unsignedOperand_ok_iff (o := .hex n) (v := key)
  | off => simp [Asm.keyOperand, Asm.unsignedOperand]
  | on => simp [Asm.keyOperand, Asm.unsignedOperand]

theorem stateOperand_ok_iff {codes : Asm.DnCodes} {o : Asm.Operand} {st : BitVec 6} :
    Asm.stateOperand codes o = .ok st ↔
      (o = .dec st.toNat ∨ o = .hex st.toNat) ∨
        ∃ name key, o = .stalk name ∧ Asm.stalkCode codes name = some key ∧ key.toNat = st.toNat := by
  have hst := st.isLt
  cases o with
  | stalk name =>
    cases h : Asm.stalkCode codes name with
    | none => simp [Asm.stateOperand, h]
    | some key =>
      simp only [Asm.stateOperand, h]
      split
      · rw [Except.ok.injEq, ← BitVec.toNat_inj, BitVec.toNat_setWidth, Nat.mod_eq_of_lt (by omega)]
        simp [h]
      · simp [h]
        omega
  | dec n => simpa [Asm.stateOperand] using unsignedOperand_ok_iff (o := .dec n) (v := st)
  | hex n => simpa [Asm.stateOperand] using unsignedOperand_ok_iff (o := .hex n) (v := st)
  | off => simp [Asm.stateOperand, Asm.unsignedOperand]
  | on => simp [Asm.stateOperand, Asm.unsignedOperand]

theorem byteOperands_ok_iff {os : List Asm.Operand} {bs : List Byte} :
    Asm.byteOperands os = .ok bs ↔
      List.Forall₂ (fun o b => Asm.unsignedOperand 8 o = .ok b) os bs := by
  induction os generalizing bs with
  | nil => simp [Asm.byteOperands, eq_comm]
  | cons o os ih =>
    rw [List.forall₂_cons_left_iff]
    simp only [← ih, Asm.byteOperands]
    cases Asm.unsignedOperand 8 o <;> cases Asm.byteOperands os <;> simp [eq_comm]

end Sys2Proof.Laws
end

