-- ==== Sys2Proof/Laws/Config.lean ====
section
/-! SUPPORT. The parameters of Config range over exactly what spec/00_scope.md R7 and R8 admit: nothing more (the
values are distinct, the table is admissible) and nothing less (every admissible choice is one of them). -/

namespace Sys2Proof.Laws

open Sys2Proof.Config

theorem skip_ne (hole i : Nat) : skip hole i ≠ hole := by
  unfold skip; split <;> omega

theorem skip_inj {hole i j : Nat} : skip hole i = skip hole j ↔ i = j := by
  unfold skip; split <;> split <;> omega

theorem skip_le (hole i : Nat) : skip hole i ≤ i + 1 := by
  unfold skip; split <;> omega

theorem exists_skip {hole n : Nat} (h : n ≠ hole) : ∃ i, skip hole i = n ∧ i ≤ n ∧ (hole ≤ n → i + 1 = n) := by
  by_cases hn : n < hole
  · exact ⟨n, by simp [skip, hn], le_rfl, by omega⟩
  · exact ⟨n - 1, by unfold skip; split <;> omega, by omega, by omega⟩

theorem dn2ndOf_toNat (a : Fin 65534) : (dn2ndOf a).toNat = skip 4 (skip 15 a.val) := by
  have := skip_le 4 (skip 15 a.val)
  have := skip_le 15 a.val
  simp only [dn2ndOf, BitVec.toNat_ofNat]
  omega

theorem dn1stOf_toNat (a : Fin 65534) (b : Fin 65533) :
    (dn1stOf a b).toNat = skip 4 (skip 15 (skip a.val b.val)) := by
  have := skip_le 4 (skip 15 (skip a.val b.val))
  have := skip_le 15 (skip a.val b.val)
  have := skip_le a.val b.val
  simp only [dn1stOf, BitVec.toNat_ofNat]
  omega

/-- Every choice of DN codes that R8 admits is one that Config allows. -/
theorem dnCodes_complete (x y : Half) (hx4 : x ≠ up2nd) (hx16 : x ≠ up1st) (hy4 : y ≠ up2nd) (hy16 : y ≠ up1st)
    (hxy : x ≠ y) : ∃ a b, dn2ndOf a = x ∧ dn1stOf a b = y := by
  have key : ∀ z : Half, z ≠ up2nd → z ≠ up1st → ∃ i, i < 65534 ∧ skip 4 (skip 15 i) = z.toNat := by
    intro z h4 h16
    have h4' : z.toNat ≠ 4 := fun h => h4 (BitVec.eq_of_toNat_eq h)
    have h16' : z.toNat ≠ 16 := fun h => h16 (BitVec.eq_of_toNat_eq h)
    have hz := z.isLt
    refine ⟨if z.toNat < 4 then z.toNat else if z.toNat < 16 then z.toNat - 1 else z.toNat - 2, ?_, ?_⟩
    · split_ifs <;> omega
    · unfold skip; split_ifs <;> omega
  obtain ⟨i, hi, hxi⟩ := key x hx4 hx16
  obtain ⟨j, hj, hyj⟩ := key y hy4 hy16
  have hij : j ≠ i := by
    rintro rfl
    exact hxy (BitVec.eq_of_toNat_eq (hxi.symm.trans hyj))
  have hb : (if j < i then j else j - 1) < 65533 := by split_ifs <;> omega
  refine ⟨⟨i, hi⟩, ⟨_, hb⟩, BitVec.eq_of_toNat_eq ?_, BitVec.eq_of_toNat_eq ?_⟩
  · rw [dn2ndOf_toNat]; exact hxi
  · rw [dn1stOf_toNat, ← hyj]
    congr 2
    simp only [skip]
    split_ifs <;> omega

/-- Every table that R7 items 1 and 2 admit is one that Config allows: restricting it changes nothing. -/
theorem restrictTable_of_admissible {d2 d1 : Half} {t : ObsTable} (h : ObsAdmissible d2 d1 t) :
    restrictTable d2 d1 t = t := by
  funext k c
  unfold restrictTable
  cases hk : knownKey d2 d1 k with
  | false => simp [h.1 k c hk]
  | true =>
    by_cases hc : k = up1st ∧ c = 2
    · rw [hc.1, hc.2, h.2]; rfl
    · have : (k == up1st && c == 2) = false := by simpa [← Bool.not_eq_true] using hc
      simp only [this, Bool.not_false, Bool.and_self, if_true]

end Sys2Proof.Laws
end

