-- ==== Sys2Proof/Laws/Decode.lean ====
section
/-! SUPPORT. The fields of a command word: a word is its five fields, and masking a word masks each field. -/

namespace Sys2Proof.Laws

theorem packWord_getLsbD (op : BitVec 4) (e : BitVec 1) (r : BitVec 3) (c : Byte) (i : Half) (j : Nat) :
    (packWord op e r c i).getLsbD j =
      if j < 16 then i.getLsbD j
      else if j < 24 then c.getLsbD (j - 16)
      else if j < 27 then r.getLsbD (j - 24)
      else if j < 28 then e.getLsbD (j - 27)
      else op.getLsbD (j - 28) := by
  unfold packWord
  rw [BitVec.getLsbD_append, BitVec.getLsbD_append, BitVec.getLsbD_append, BitVec.getLsbD_append]
  simp only [Nat.sub_sub]
  split_ifs <;> first | rfl | omega

@[simp] theorem fieldOp_packWord (op : BitVec 4) (e : BitVec 1) (r : BitVec 3) (c : Byte) (i : Half) :
    fieldOp (packWord op e r c i) = op := by
  apply BitVec.eq_of_getLsbD_eq
  intro j hj
  simp only [fieldOp, BitVec.getLsbD_extractLsb', packWord_getLsbD]
  split_ifs <;> first | omega | simp [hj]

@[simp] theorem fieldE_packWord (op : BitVec 4) (e : BitVec 1) (r : BitVec 3) (c : Byte) (i : Half) :
    fieldE (packWord op e r c i) = e := by
  apply BitVec.eq_of_getLsbD_eq
  intro j hj
  simp only [fieldE, BitVec.getLsbD_extractLsb', packWord_getLsbD]
  split_ifs <;> first | omega | simp [hj]

@[simp] theorem fieldRsv_packWord (op : BitVec 4) (e : BitVec 1) (r : BitVec 3) (c : Byte) (i : Half) :
    fieldRsv (packWord op e r c i) = r := by
  apply BitVec.eq_of_getLsbD_eq
  intro j hj
  simp only [fieldRsv, BitVec.getLsbD_extractLsb', packWord_getLsbD]
  split_ifs <;> first | omega | simp [hj]

@[simp] theorem fieldCtr_packWord (op : BitVec 4) (e : BitVec 1) (r : BitVec 3) (c : Byte) (i : Half) :
    fieldCtr (packWord op e r c i) = c := by
  apply BitVec.eq_of_getLsbD_eq
  intro j hj
  simp only [fieldCtr, BitVec.getLsbD_extractLsb', packWord_getLsbD]
  split_ifs <;> first | omega | simp [hj]

@[simp] theorem fieldImm16_packWord (op : BitVec 4) (e : BitVec 1) (r : BitVec 3) (c : Byte) (i : Half) :
    fieldImm16 (packWord op e r c i) = i := by
  apply BitVec.eq_of_getLsbD_eq
  intro j hj
  simp only [fieldImm16, BitVec.getLsbD_extractLsb', packWord_getLsbD]
  split_ifs <;> first | omega | simp [hj]

/-- A word is its five fields (spec/30_encoding.md R42). -/
theorem packWord_fields (w : Word) :
    packWord (fieldOp w) (fieldE w) (fieldRsv w) (fieldCtr w) (fieldImm16 w) = w := by
  apply BitVec.eq_of_getLsbD_eq
  intro j hj
  simp only [packWord_getLsbD, fieldOp, fieldE, fieldRsv, fieldCtr, fieldImm16, BitVec.getLsbD_extractLsb']
  split_ifs <;> grind

theorem packWord_and (a a' : BitVec 4) (b b' : BitVec 1) (c c' : BitVec 3) (d d' : Byte) (e e' : Half) :
    packWord a b c d e &&& packWord a' b' c' d' e' =
      packWord (a &&& a') (b &&& b') (c &&& c') (d &&& d') (e &&& e') := by
  apply BitVec.eq_of_getLsbD_eq
  intro j _
  simp only [BitVec.getLsbD_and, packWord_getLsbD]
  split_ifs <;> rfl

theorem packWord_inj {a a' : BitVec 4} {b b' : BitVec 1} {c c' : BitVec 3} {d d' : Byte} {e e' : Half} :
    packWord a b c d e = packWord a' b' c' d' e' ↔ a = a' ∧ b = b' ∧ c = c' ∧ d = d' ∧ e = e' := by
  refine ⟨fun h => ⟨?_, ?_, ?_, ?_, ?_⟩, fun ⟨h1, h2, h3, h4, h5⟩ => by rw [h1, h2, h3, h4, h5]⟩
  · simpa using congrArg fieldOp h
  · simpa using congrArg fieldE h
  · simpa using congrArg fieldRsv h
  · simpa using congrArg fieldCtr h
  · simpa using congrArg fieldImm16 h

/-- Masking a word masks each of its fields. -/
theorem word_and_eq_iff (w : Word) (a' a'' : BitVec 4) (b' b'' : BitVec 1) (c' c'' : BitVec 3) (d' d'' : Byte)
    (e' e'' : Half) :
    w &&& packWord a' b' c' d' e' = packWord a'' b'' c'' d'' e'' ↔
      fieldOp w &&& a' = a'' ∧ fieldE w &&& b' = b'' ∧ fieldRsv w &&& c' = c'' ∧ fieldCtr w &&& d' = d'' ∧
        fieldImm16 w &&& e' = e'' := by
  conv_lhs => rw [← packWord_fields w, packWord_and]
  exact packWord_inj

/-- The zero word, field by field. -/
theorem zero_eq_packWord : (0 : Word) = packWord 0 0 0 0 0 := by decide

/-- `RsvMask(OP)` field by field (R50). -/
theorem rsvMask_eq_packWord (op : Opcode) :
    rsvMask op = match op with
      | .steer => packWord 0 0 7 0 0
      | .epb => packWord 0 1 7 0 0xFFFF
      | .stalk => packWord 0 1 7 0 0xFFC0
      | .obscks => packWord 0 1 7 0 0
      | .ckinit => packWord 0 1 7 0xFF 0
      | .ckadd => packWord 0 1 7 0 0xFFFF := by
  cases op <;> decide

/-- The low six bits of `IMM16` are the low six bits of the word. -/
theorem state_packWord (op : BitVec 4) (e : BitVec 1) (r : BitVec 3) (c : Byte) (i : Half) :
    (packWord op e r c i).extractLsb' 0 6 = i.setWidth 6 := by
  apply BitVec.eq_of_getLsbD_eq
  intro j hj
  simp only [BitVec.getLsbD_extractLsb', packWord_getLsbD, BitVec.getLsbD_setWidth]
  split_ifs <;> first | omega | simp [hj]

theorem and_ones_eq_zero_iff {n : Nat} (x m : BitVec n) (h : m = BitVec.allOnes n) : x &&& m = 0 ↔ x = 0 := by
  rw [h, BitVec.and_allOnes]

/-- The must-be-0 check of R50, field by field. -/
theorem rsvMask_clear_iff (op : Opcode) (w : Word) :
    w &&& rsvMask op = 0 ↔
      match op with
      | .steer => fieldRsv w = 0
      | .epb => fieldE w = 0 ∧ fieldRsv w = 0 ∧ fieldImm16 w = 0
      | .stalk => fieldE w = 0 ∧ fieldRsv w = 0 ∧ fieldImm16 w &&& 0xFFC0 = 0
      | .obscks => fieldE w = 0 ∧ fieldRsv w = 0
      | .ckinit => fieldE w = 0 ∧ fieldRsv w = 0 ∧ fieldCtr w = 0
      | .ckadd => fieldE w = 0 ∧ fieldRsv w = 0 ∧ fieldImm16 w = 0 := by
  have h7 := and_ones_eq_zero_iff (fieldRsv w) 7 (by decide)
  have h1 := and_ones_eq_zero_iff (fieldE w) 1 (by decide)
  have hF := and_ones_eq_zero_iff (fieldImm16 w) 0xFFFF (by decide)
  have hC := and_ones_eq_zero_iff (fieldCtr w) 0xFF (by decide)
  rw [rsvMask_eq_packWord, zero_eq_packWord]
  cases op <;> simp only [word_and_eq_iff, h7, h1, hF, hC] <;> simp

/-- What `decode` answers, by the opcode alone and then by the reserved bits (spec/60_exceptions.md R92). -/
theorem decode_eq_of_opcode {w : Word} {op : Opcode} (h : opcodeOf (fieldOp w) = some op) :
    decode w = if w &&& rsvMask op ≠ 0 then .error .reservedField else .ok (operandsOf op w) := by
  simp only [decode, h]

theorem decode_eq_illegal {w : Word} (h : opcodeOf (fieldOp w) = none) : decode w = .error .illegalOp := by
  simp only [decode, h]

/-- Every value of `OP` is one of the six assigned ones or is illegal (R48, R49). -/
theorem opcodeOf_eq (op : BitVec 4) :
    opcodeOf op = if op = 1 then some .steer else if op = 2 then some .epb else if op = 3 then some .stalk
      else if op = 4 then some .obscks else if op = 5 then some .ckinit else if op = 6 then some .ckadd
      else none := by
  revert op
  decide

theorem ofBool_beq_one (e : BitVec 1) : BitVec.ofBool (e == 1#1) = e := by
  revert e; decide

@[simp] theorem beq_one_ofBool (b : Bool) : (BitVec.ofBool b == 1#1) = b := by
  cases b <;> rfl

/-- The low six bits of a word are those of its `IMM16`. -/
theorem state_field (w : Word) : w.extractLsb' 0 6 = (fieldImm16 w).setWidth 6 := by
  conv_lhs => rw [← packWord_fields w, state_packWord]

/-- What `decode` answers for each assigned opcode, by the fields of the word (R50, R92). -/
theorem decode_by_fields {op : Opcode} {w : Word} (h : opcodeOf (fieldOp w) = some op) :
    decode w =
      match op with
      | .steer => if fieldRsv w = 0 then .ok (.steer (fieldE w == 1) (fieldImm16 w) (fieldCtr w))
          else .error .reservedField
      | .epb => if fieldE w = 0 ∧ fieldRsv w = 0 ∧ fieldImm16 w = 0 then .ok (.epb (fieldCtr w))
          else .error .reservedField
      | .stalk => if fieldE w = 0 ∧ fieldRsv w = 0 ∧ fieldImm16 w &&& 0xFFC0 = 0
          then .ok (.stalk ((fieldImm16 w).setWidth 6) (fieldCtr w)) else .error .reservedField
      | .obscks => if fieldE w = 0 ∧ fieldRsv w = 0 then .ok (.obscks (fieldImm16 w) (fieldCtr w))
          else .error .reservedField
      | .ckinit => if fieldE w = 0 ∧ fieldRsv w = 0 ∧ fieldCtr w = 0 then .ok (.ckinit (fieldImm16 w))
          else .error .reservedField
      | .ckadd => if fieldE w = 0 ∧ fieldRsv w = 0 ∧ fieldImm16 w = 0 then .ok (.ckadd (fieldCtr w))
          else .error .reservedField := by
  rw [decode_eq_of_opcode h, ite_not]
  cases op <;> simp only [rsvMask_clear_iff, operandsOf, state_field]

end Sys2Proof.Laws
end

