-- ==== Sys2Proof/Laws/Ops.lean ====
section
/-! SUPPORT. What each shared operation and each meaning can do, said once: the checksum's recursion, the state an
instruction leaves, and the cases of an edge. -/

namespace Sys2Proof.Laws

open Sys2Proof.Machine

/-- One more byte at the end of the sequence adds that byte mod 256 (spec/40_checksum.md R59). -/
theorem checksum_append (id : Half) (bs : List Byte) (b : Byte) :
    checksum id (bs ++ [b]) = checksum id bs + b := by
  apply BitVec.eq_of_toNat_eq
  simp [checksum, List.foldl_append]

/-- The empty sequence gives the seed, narrowed: the sum of the id's two bytes (R59). -/
theorem checksum_nil (id : Half) : checksum id [] = id.extractLsb' 0 8 + id.extractLsb' 8 8 := by
  apply BitVec.eq_of_toNat_eq
  simp [checksum, seed]

/-- The meaning of each instruction is a record put into RSP, after what it does to ACC: `accAfter` of it. -/
def accAfter (i : Instr) (acc : Byte) : Byte :=
  match i with
  | .ckinit id => checksum id []
  | .ckadd b => acc + b
  | .steer _ _ _ => acc
  | .epb _ => acc
  | .stalk _ _ => acc
  | .obscks _ _ => acc

/-- The record of each instruction, given the accumulator before it. -/
def recordOf (i : Instr) (acc : Byte) : Rsp :=
  match i with
  | .steer en t c => buildRecord idSteer (steerPayload en t c) busSteer
  | .epb c => buildRecord idEpb (epbPayload c) busEpb
  | .stalk st c => buildRecord idStalk (stalkPayload st c) busStalk
  | .obscks k c => lookupRecord (observedEntry Config.obsTable k c)
  | .ckinit id => scalarRecord (checksum id []) false
  | .ckadd b => scalarRecord (acc + b) false

/-- Everything `exec` can do, for every instruction and state. -/
theorem exec_eq (i : Instr) (s : State) :
    exec i s = .next { s with acc := accAfter i s.acc, rsp := recordOf i s.acc, pend := true } := by
  cases i <;> rfl

/-- Everything `execute` can do: one of the two errors, or the decoded instruction. -/
theorem execute_cases (w : Word) (s : State) :
    (∃ i, decode w = .ok i ∧ execute w s = exec i s) ∨
      ∃ e, decode w = .error e ∧ execute w s = .next (takeError e s) := by
  cases h : decode w with
  | ok i => exact .inl ⟨i, rfl, by simp only [execute, h]⟩
  | error e => exact .inr ⟨e, rfl, by simp only [execute, h]⟩

/-- An accepted word always gives a next state, which holds its response and leaves the ports alone. -/
theorem execute_next (w : Word) (s : State) :
    ∃ t, execute w s = .next t ∧ t.pend = true ∧ t.pins = s.pins ∧ t.freeIndex = s.freeIndex := by
  obtain ⟨i, _, h⟩ | ⟨e, _, h⟩ := execute_cases w s
  · exact ⟨_, h.trans (exec_eq i s), rfl, rfl, rfl⟩
  · exact ⟨_, h, rfl, rfl, rfl⟩

/-- Everything an edge can do (spec/70_reset_and_hazards.md R104), guards included. -/
theorem edge_cases (p : Pins) (s : State) :
    (p.rst = true ∧ edge p s = .next (resetBlock s)) ∨
      (p.rst = false ∧ s.pend = true ∧ p.rspReady = true ∧ edge p s = .next { s with pend := false }) ∨
      (p.rst = false ∧ s.pend = true ∧ p.rspReady = false ∧ edge p s = .next s) ∨
      (p.rst = false ∧ s.pend = false ∧ p.cmdValid = true ∧ edge p s = execute p.cmdData s) ∨
      (p.rst = false ∧ s.pend = false ∧ p.cmdValid = false ∧ edge p s = .next s) := by
  cases h1 : p.rst <;> cases h2 : s.pend <;> cases h3 : p.rspReady <;> cases h4 : p.cmdValid <;>
    simp [edge, h1, h2, h3, h4]

/-- An edge always gives a next state (R87, R104). -/
theorem edge_next (p : Pins) (s : State) : ∃ t, edge p s = .next t := by
  obtain ⟨_, h⟩ | ⟨_, _, _, h⟩ | ⟨_, _, _, h⟩ | ⟨_, _, _, h⟩ | ⟨_, _, _, h⟩ := edge_cases p s
  · exact ⟨_, h⟩
  · exact ⟨_, h⟩
  · exact ⟨_, h⟩
  · obtain ⟨t, ht, _⟩ := execute_next p.cmdData s
    exact ⟨t, h.trans ht⟩
  · exact ⟨_, h⟩

end Sys2Proof.Laws
end

