-- ==== Sys2Proof/Laws/PerInstr.lean ====
section
/-! SUPPORT. Per instruction: its word is a word of its row of the opcode map (spec/30_encoding.md R48), so no
instruction encodes to a word that the reserved-field check turns away. -/

namespace Sys2Proof.Laws.EncodeRow

/-- The row of spec/30_encoding.md R48 that an instruction belongs to, by mask and match. -/
def rowOf : Instr → Word × Word
  | .steer _ _ _ => (0xF7000000, 0x10000000)
  | .epb _ => (0xFF00FFFF, 0x20000000)
  | .stalk _ _ => (0xFF00FFC0, 0x30000000)
  | .obscks _ _ => (0xFF000000, 0x40000000)
  | .ckinit _ => (0xFFFF0000, 0x50000000)
  | .ckadd _ => (0xFF00FFFF, 0x60000000)

def Statement (i : Instr) : Prop :=
  i.wellFormed = true ∧ encode i &&& (rowOf i).1 = (rowOf i).2

theorem steer (en : Bool) (t : Half) (c : Byte) : Statement (.steer en t c) := by
  have h : (encode (.steer en t c)) &&& packWord 0xF 0 7 0 0 = packWord 1 0 0 0 0 := by
    rw [word_and_eq_iff]; simp [encode]
  exact ⟨rfl, h⟩

theorem epb (c : Byte) : Statement (.epb c) := by
  have h : (encode (.epb c)) &&& packWord 0xF 1 7 0 0xFFFF = packWord 2 0 0 0 0 := by
    rw [word_and_eq_iff]; simp [encode]
  exact ⟨rfl, h⟩

/-- A 6-bit state leaves `IMM16[15:6]` 0. -/
theorem state_high_zero (st : BitVec 6) : st.setWidth 16 &&& (0xFFC0 : Half) = 0 := by
  revert st; decide

theorem stalk (st : BitVec 6) (c : Byte) : Statement (.stalk st c) := by
  have h : (encode (.stalk st c)) &&& packWord 0xF 1 7 0 0xFFC0 = packWord 3 0 0 0 0 := by
    rw [word_and_eq_iff]; simp only [encode, fieldOp_packWord, fieldE_packWord, fieldRsv_packWord, fieldCtr_packWord,
      fieldImm16_packWord, state_high_zero]; simp
  exact ⟨rfl, h⟩

theorem obscks (k : Half) (c : Byte) : Statement (.obscks k c) := by
  have h : (encode (.obscks k c)) &&& packWord 0xF 1 7 0 0 = packWord 4 0 0 0 0 := by
    rw [word_and_eq_iff]; simp [encode]
  exact ⟨rfl, h⟩

theorem ckinit (id : Half) : Statement (.ckinit id) := by
  have h : (encode (.ckinit id)) &&& packWord 0xF 1 7 0xFF 0 = packWord 5 0 0 0 0 := by
    rw [word_and_eq_iff]; simp [encode]
  exact ⟨rfl, h⟩

theorem ckadd (b : Byte) : Statement (.ckadd b) := by
  have h : (encode (.ckadd b)) &&& packWord 0xF 1 7 0 0xFFFF = packWord 6 0 0 0 0 := by
    rw [word_and_eq_iff]; simp [encode]
  exact ⟨rfl, h⟩

end Sys2Proof.Laws.EncodeRow
end

