-- ==== Sys2Proof/Laws/State.lean ====
section
/-! SUPPORT. One lemma per field per update of the state, and per field of each kind of record. -/

namespace Sys2Proof.Laws

open Sys2Proof.Machine

variable (s : State) (r : Rsp) (v : Byte) (w : Word) (e : DecodeError)

@[simp] theorem respond_acc : (respond r s).acc = s.acc := rfl
@[simp] theorem respond_pend : (respond r s).pend = true := rfl
@[simp] theorem respond_rsp : (respond r s).rsp = r := rfl
@[simp] theorem respond_pins : (respond r s).pins = s.pins := rfl
@[simp] theorem respond_freeIndex : (respond r s).freeIndex = s.freeIndex := rfl

@[simp] theorem respondAcc_acc : (respondAcc v s).acc = v := rfl
@[simp] theorem respondAcc_pend : (respondAcc v s).pend = true := rfl
@[simp] theorem respondAcc_rsp : (respondAcc v s).rsp = scalarRecord v false := rfl
@[simp] theorem respondAcc_pins : (respondAcc v s).pins = s.pins := rfl
@[simp] theorem respondAcc_freeIndex : (respondAcc v s).freeIndex = s.freeIndex := rfl

@[simp] theorem takeError_acc : (takeError e s).acc = s.acc := rfl
@[simp] theorem takeError_pend : (takeError e s).pend = true := rfl
@[simp] theorem takeError_rsp : (takeError e s).rsp = errorRecord (statusOf e) := rfl
@[simp] theorem takeError_pins : (takeError e s).pins = s.pins := rfl
@[simp] theorem takeError_freeIndex : (takeError e s).freeIndex = s.freeIndex := rfl

@[simp] theorem resetBlock_acc : (resetBlock s).acc = 0 := rfl
@[simp] theorem resetBlock_pend : (resetBlock s).pend = false := rfl
@[simp] theorem resetBlock_rsp : (resetBlock s).rsp = Rsp.reset := rfl
@[simp] theorem resetBlock_pins : (resetBlock s).pins = s.pins := rfl
@[simp] theorem resetBlock_freeIndex : (resetBlock s).freeIndex = s.freeIndex := rfl

@[simp] theorem presentCommand_acc : (presentCommand w s).acc = s.acc := rfl
@[simp] theorem presentCommand_pend : (presentCommand w s).pend = false := rfl
@[simp] theorem presentCommand_rsp : (presentCommand w s).rsp = s.rsp := rfl
@[simp] theorem presentCommand_pins : (presentCommand w s).pins = presentPins w :: s.pins := rfl
@[simp] theorem presentCommand_freeIndex : (presentCommand w s).freeIndex = s.freeIndex := rfl

@[simp] theorem consumePins_acc : (consumePins s).acc = s.acc := by unfold consumePins; split <;> rfl
@[simp] theorem consumePins_pend : (consumePins s).pend = s.pend := by unfold consumePins; split <;> rfl
@[simp] theorem consumePins_rsp : (consumePins s).rsp = s.rsp := by unfold consumePins; split <;> rfl

theorem consumePins_cons {p : Pins} {ps : List Pins} (h : s.pins = p :: ps) :
    consumePins s = { s with pins := ps } := by
  unfold consumePins; rw [h]

theorem samplePins_cons {p : Pins} {ps : List Pins} (h : s.pins = p :: ps) : samplePins s = p := by
  unfold samplePins; rw [h]

@[simp] theorem scalarRecord_status (h : Bool) : (scalarRecord v h).status = 0 := rfl
@[simp] theorem scalarRecord_frame (h : Bool) : (scalarRecord v h).frame = false := rfl
@[simp] theorem scalarRecord_hit (h : Bool) : (scalarRecord v h).hit = h := rfl
@[simp] theorem scalarRecord_val (h : Bool) : (scalarRecord v h).val = v := rfl

@[simp] theorem errorRecord_status (x : BitVec 2) : (errorRecord x).status = x := rfl
@[simp] theorem errorRecord_frame (x : BitVec 2) : (errorRecord x).frame = false := rfl
@[simp] theorem errorRecord_hit (x : BitVec 2) : (errorRecord x).hit = false := rfl
@[simp] theorem errorRecord_val (x : BitVec 2) : (errorRecord x).val = 0 := rfl

variable (id : Half) (p : List Byte) (bus : Byte)

@[simp] theorem frameRecord_status : (frameRecord id p bus).status = 0 := rfl
@[simp] theorem frameRecord_frame : (frameRecord id p bus).frame = true := rfl
@[simp] theorem frameRecord_hit : (frameRecord id p bus).hit = false := rfl
@[simp] theorem frameRecord_val : (frameRecord id p bus).val = 0 := rfl
@[simp] theorem frameRecord_id : (frameRecord id p bus).id = id := rfl
@[simp] theorem frameRecord_qual : (frameRecord id p bus).qual = 0 := rfl
@[simp] theorem frameRecord_bus : (frameRecord id p bus).bus = bus := rfl
@[simp] theorem frameRecord_dlc : (frameRecord id p bus).dlc = BitVec.ofNat 4 p.length := rfl
@[simp] theorem frameRecord_data : (frameRecord id p bus).data = padPayload p := rfl

end Sys2Proof.Laws
end

