-- ==== Sys2Proof/Laws/Step.lean ====
section
/-! SUPPORT. Everything one step can do, runs of steps, sequences of accepted words, and the bits of `rsp_data`. -/

namespace Sys2Proof.Laws

open Sys2Proof.Machine

/-- Everything a step can do (spec/70_reset_and_hazards.md R104), guards included. -/
theorem step_cases (s : State) :
    ((samplePins s).rst = true ∧ step s = .next (resetBlock (consumePins s))) ∨
      ((samplePins s).rst = false ∧ s.pend = true ∧ (samplePins s).rspReady = true ∧
        step s = .next { consumePins s with pend := false }) ∨
      ((samplePins s).rst = false ∧ s.pend = true ∧ (samplePins s).rspReady = false ∧
        step s = .next (consumePins s)) ∨
      ((samplePins s).rst = false ∧ s.pend = false ∧ (samplePins s).cmdValid = true ∧
        step s = execute (samplePins s).cmdData (consumePins s)) ∨
      ((samplePins s).rst = false ∧ s.pend = false ∧ (samplePins s).cmdValid = false ∧
        step s = .next (consumePins s)) := by
  have h := edge_cases (samplePins s) (consumePins s)
  rw [consumePins_pend] at h
  exact h

theorem step_scripted (s : State) (p : Pins) (ps : List Pins) :
    step { s with pins := p :: ps } = edge p { s with pins := ps } := rfl

theorem run_succ {n : Nat} {s t : State} (h : step s = .next t) :
    Host.Core.run Sys2Proof.core (n + 1) s = Host.Core.run Sys2Proof.core n t := by
  have h' : Sys2Proof.core.step s = .next t := h
  simp only [Host.Core.run, h']

theorem executeAll_next (ws : List Word) (s : State) : ∃ t, executeAll ws s = .next t := by
  induction ws generalizing s with
  | nil => exact ⟨s, rfl⟩
  | cons w ws ih =>
    obtain ⟨u, hu, _⟩ := execute_next w s
    obtain ⟨t, ht⟩ := ih u
    exact ⟨t, by simp only [executeAll, hu, ht]⟩

theorem executeAll_append {ws : List Word} (vs : List Word) {s t : State} (h : executeAll ws s = .next t) :
    executeAll (ws ++ vs) s = executeAll vs t := by
  induction ws generalizing s with
  | nil => cases h; rfl
  | cons w ws ih =>
    obtain ⟨u, hu, _⟩ := execute_next w s
    simp only [executeAll, hu, List.cons_append] at h ⊢
    exact ih h

/-- One accepted word, one response (spec/20_memory.md R38). -/
theorem responses_length (ws : List Word) (s : State) : (responses ws s).length = ws.length := by
  induction ws generalizing s with
  | nil => rfl
  | cons w ws ih =>
    obtain ⟨t, ht, _⟩ := execute_next w s
    simp only [responses, ht, List.length_cons, ih]

/-- `pack(RSP)` bit by bit (spec/30_encoding.md R51). -/
theorem packRsp_getLsbD (r : Rsp) (j : Nat) :
    (packRsp r).getLsbD j =
      if j < 16 then (0 : BitVec 16).getLsbD j else if j < 18 then r.status.getLsbD (j - 16)
      else if j < 19 then (BitVec.ofBool r.frame).getLsbD (j - 18)
      else if j < 20 then (BitVec.ofBool r.hit).getLsbD (j - 19)
      else if j < 28 then r.val.getLsbD (j - 20) else if j < 32 then r.dlc.getLsbD (j - 28)
      else if j < 40 then r.bus.getLsbD (j - 32) else if j < 48 then r.qual.getLsbD (j - 40)
      else if j < 64 then r.id.getLsbD (j - 48) else if j < 72 then r.data[7].getLsbD (j - 64)
      else if j < 80 then r.data[6].getLsbD (j - 72) else if j < 88 then r.data[5].getLsbD (j - 80)
      else if j < 96 then r.data[4].getLsbD (j - 88) else if j < 104 then r.data[3].getLsbD (j - 96)
      else if j < 112 then r.data[2].getLsbD (j - 104) else if j < 120 then r.data[1].getLsbD (j - 112)
      else r.data[0].getLsbD (j - 120) := by
  unfold packRsp
  iterate 16 rw [BitVec.getLsbD_append]
  simp only [Nat.sub_sub]
  repeat' first | rfl | refine if_congr (by omega) ?_ ?_

end Sys2Proof.Laws
end

