-- ==== Sys2Proof/Tests/Slice0.lean ====
section
/-! SUPPORT. The model's own tests. Expected results are those of spec/95_test_vectors.md (the section is named), or bits
written out from the encoding of spec/30_encoding.md. After them, for every statement with hypotheses, a concrete input
that meets them, at the boundary values of each clause. -/

open Sys2Proof Sys2Proof.Machine Sys2Proof.Spec

namespace Sys2Proof.Tests

/-- The reset state with `ACC`, `PEND` and the coming input samples given. -/
def stateWith (acc : Byte) (pend : Bool) (pins : List Pins) : State :=
  { State.reset with acc := acc, pend := pend, pins := pins }

/-- The next state, where there is one. -/
def nextOf : Result → Option State
  | .next t => some t
  | _ => none

/-- `ACC`, `PEND` and `rsp_data` after the word is accepted with `ACC = acc` (the columns of section 2). -/
def accepted (acc : Byte) (w : Nat) : Option (Byte × Bool × BitVec 128) :=
  (nextOf (step ((stateWith acc false []).withFetchWord 32 w))).map fun t => (t.acc, rspValid t, rspData t)

/-- The example table of section 2.6. -/
def exampleTable : Config.ObsTable := fun k c =>
  if k = 4 ∧ c = 0 then some 0x56 else if k = 4 ∧ c = 1 then some 0x00 else if k = 16 ∧ c = 0 then some 0x86 else none

/-! ## Decoding words written out bit by bit: OP, E, RSV, CTR, IMM16 (30_encoding.md R42, R48) -/

theorem test_decode_steer : decode 0b0001_1_000_11000101_1111111011010100 = .ok (.steer true 0xFED4 0xC5) := by decide
theorem test_decode_epb : decode 0b0010_0_000_11101001_0000000000000000 = .ok (.epb 233) := by decide
theorem test_decode_stalk : decode 0b0011_0_000_00000111_0000000000100001 = .ok (.stalk 33 7) := by decide
theorem test_decode_obscks : decode 0b0100_0_000_00010010_0000000100000100 = .ok (.obscks 0x104 18) := by decide
theorem test_decode_ckinit : decode 0b0101_0_000_00000000_0000001000010100 = .ok (.ckinit 0x214) := by decide
theorem test_decode_ckadd : decode 0b0110_0_000_11110000_0000000000000000 = .ok (.ckadd 0xF0) := by decide

theorem test_encode_steer : encode (.steer true 0xFED4 5) = 0x1805FED4 := by decide
theorem test_encode_stalk : encode (.stalk 63 255) = 0x30FF003F := by decide

/-! ## What is ill formed is refused (R48, R50) -/

theorem test_illformed_op0 : wordWellFormed 0x00000000 = false ∧ decode 0x00000000 = .error .illegalOp := by decide
theorem test_illformed_op7 : wordWellFormed 0x70000000 = false ∧ decode 0x70000000 = .error .illegalOp := by decide
theorem test_illformed_opF : wordWellFormed 0xFFFFFFFF = false ∧ decode 0xFFFFFFFF = .error .illegalOp := by decide
theorem test_illformed_steer_rsv :
    wordWellFormed 0x11000000 = false ∧ decode 0x11000000 = .error .reservedField := by decide
theorem test_illformed_epb :
    ([0x28050000, 0x21050000, 0x20050001] : List Word).all
      (fun w => !wordWellFormed w && decide (decode w = .error .reservedField)) = true := by decide
theorem test_illformed_stalk :
    ([0x38000004, 0x34000004, 0x30000040, 0x3000FFFF] : List Word).all
      (fun w => !wordWellFormed w && decide (decode w = .error .reservedField)) = true := by decide
theorem test_illformed_obscks :
    ([0x48000010, 0x42000010] : List Word).all
      (fun w => !wordWellFormed w && decide (decode w = .error .reservedField)) = true := by decide
theorem test_illformed_ckinit :
    ([0x58000214, 0x51000214, 0x50010214] : List Word).all
      (fun w => !wordWellFormed w && decide (decode w = .error .reservedField)) = true := by decide
theorem test_illformed_ckadd :
    ([0x68050000, 0x64050000, 0x60050100] : List Word).all
      (fun w => !wordWellFormed w && decide (decode w = .error .reservedField)) = true := by decide
theorem test_wellformed_word : wordWellFormed 0x18C00000 = true ∧ wordWellFormed 0x30FF003F = true := by decide

/-! ## Steps from section 2 of 95_test_vectors.md, each accepted word through `step` -/

theorem test_checksum_order : checksum 0x214 [1, 5] = 0x1C ∧ checksum 0x214 [5, 1] = 0x1C := by decide
theorem test_checksum_wraps : checksum 0xFFFF [] = 0xFE ∧
    checksum 0xFFFF [0xFF, 0xFF, 0xFF, 0xFF, 0xFF, 0xFF, 0xFF, 0xFF] = 0xF6 := by decide

theorem test_steer_negative :
    accepted 0x33 0x1805FED4 = some (0x33, true, 0xFED445A3000000000488000240040000) := by decide
theorem test_steer_counter_masked :
    accepted 0x33 0x10FF0100 = some (0x33, true, 0x01003FCC000000000488000240040000) := by decide
theorem test_epb_checksum_zero :
    accepted 0x33 0x20E90000 = some (0x33, true, 0x01E90000000000000214000230040000) := by decide
theorem test_epb_example : accepted 0x33 0x20050000 = some (0x33, true, 0x01051C00000000000214000230040000) := by decide
theorem test_stalk_example : accepted 0x33 0x30000004 = some (0x33, true, 0x12FF0000000000560045000080040000) := by decide
theorem test_stalk_highest :
    accepted 0x33 0x30FF003F = some (0x33, true, 0xFEFF00000000FF410045000080040000) := by decide
theorem test_ckinit_seed_wraps : accepted 0x33 0x5000FFFF = some (0xFE, true, 0x0FE00000) := by decide
theorem test_ckinit_example : accepted 0x33 0x50000214 = some (0x16, true, 0x01600000) := by decide
theorem test_ckadd_wraps : accepted 0x10 0x60F00000 = some (0x00, true, 0) := by decide
theorem test_ckadd_example : accepted 0x16 0x60010000 = some (0x17, true, 0x01700000) := by decide
theorem test_illegal_op : accepted 0x33 0xF0123456 = some (0x33, true, 0x00010000) := by decide
theorem test_reserved_field : accepted 0x33 0x1FC0FFFF = some (0x33, true, 0x00020000) := by decide

/-- Section 2.6: `OBSCKS 4, 16` and `OBSCKS 16, 18` miss with any table, since the counter is past 15. -/
theorem test_obscks_counter_past_15 :
    accepted 0x33 0x40100004 = some (0x33, true, 0) ∧ accepted 0x33 0x40120010 = some (0x33, true, 0) := ⟨rfl, rfl⟩

/-- Section 2.6: `OBSCKS 16, 2` misses with any table. -/
theorem test_obscks_unmeasured (dn2nd dn1st : Half) (raw : Config.ObsTable) :
    observedEntry (Config.restrictTable dn2nd dn1st raw) 16 2 = none := by
  simp [observedEntry, romRead, Config.restrictTable, Config.up1st]

/-- Section 2.6, the example table: hits, a recorded zero among them, and a key that is not narrowed. -/
theorem test_lookup_example_table :
    packRsp (lookupRecord (observedEntry exampleTable 4 0)) = 0x05680000 ∧
      packRsp (lookupRecord (observedEntry exampleTable 4 1)) = 0x00080000 ∧
      packRsp (lookupRecord (observedEntry exampleTable 0x104 0)) = 0 := by decide

/-! ## Edges from P6 of 95_test_vectors.md -/

theorem test_edge_reset_discards :
    nextOf (step (stateWith 0x1C true [⟨true, true, 0x20050000, false⟩])) = some State.reset := by decide
theorem test_edge_held :
    (nextOf (step (stateWith 0x16 true [⟨false, true, 0x60010000, false⟩]))).map (fun t => (t.acc, t.pend)) =
      some (0x16, true) := by decide
theorem test_edge_taken :
    (nextOf (step (stateWith 0x16 true [⟨false, true, 0x60010000, true⟩]))).map (fun t => (t.acc, t.pend)) =
      some (0x16, false) := by decide
theorem test_edge_accepts_despite_rsp_ready :
    (nextOf (step (stateWith 0x17 false [⟨false, true, 0x60050000, true⟩]))).map (fun t => (t.acc, t.pend, t.rsp.val)) =
      some (0x1C, true, 0x1C) := by decide
theorem test_cmd_ready :
    cmdReady false State.reset = true ∧ cmdReady true State.reset = false ∧
      cmdReady false (stateWith 0 true []) = false := by decide

/-- R6: the payload lengths, checksum byte included. -/
theorem test_lengths (en : Bool) (t : Half) (st : BitVec 6) (c : Byte) :
    (steerPayload en t c).length + 1 = lenSteer ∧ (epbPayload c).length + 1 = lenEpb ∧
      (stalkPayload st c).length + 1 = lenStalk := ⟨rfl, rfl, rfl⟩

/-! ## The assembler (30_encoding.md R57, R58; lines of 95_test_vectors.md) -/

def noCodes : Asm.DnCodes := ⟨none, none⟩

theorem test_asm_steer : Asm.assembleLine noCodes "STEER ON, -2, 3".toList = .ok [0x1803FFFE] := by decide
theorem test_asm_hex_torque : Asm.assembleLine noCodes "steer 0, 0x8000, 63".toList = .ok [0x103F8000] := by decide
theorem test_asm_names :
    Asm.assembleLine noCodes "STALK UP_2ND, 0".toList = .ok [0x30000004] ∧
      Asm.assembleLine noCodes "OBSCKS UP_1ST, 18".toList = .ok [0x40120010] := by decide
theorem test_asm_cksum :
    Asm.assembleLine noCodes "CKSUM 0x214, 1, 5".toList = .ok [0x50000214, 0x60010000, 0x60050000] := by decide
theorem test_asm_word : Asm.assembleLine noCodes ".word 0x70000000".toList = .ok [0x70000000] := by decide
theorem test_asm_rejects :
    Asm.assembleLine noCodes "STALK 64, 0".toList = .error .outOfRange ∧
      Asm.assembleLine noCodes "STEER 2, 0, 0".toList = .error .outOfRange ∧
      Asm.assembleLine noCodes "STEER 1, 32768, 0".toList = .error .outOfRange ∧
      Asm.assembleLine noCodes "EPB 256".toList = .error .outOfRange ∧
      Asm.assembleLine noCodes "STALK DN_2ND, 0".toList = .error .badOperand ∧
      Asm.assembleLine ⟨some 64, none⟩ "STALK DN_2ND, 0".toList = .error .outOfRange ∧
      Asm.assembleLine noCodes "NOP".toList = .error .unknownMnemonic := by decide
theorem test_asm_program :
    Asm.assembleProgram noCodes 1 ["CKINIT 0x45".toList, "CKADD 0x12".toList, "EPB".toList] =
      .error (3, .operandCount) := by decide

/-! Each clause of AssemblerRejectsOutOfRange at the ends of its range: the words are put together from R57's "Encodes"
column, and the first value past each end is rejected. -/

theorem witness_AssemblerRejectsOutOfRange_torque :
    ["STEER 1, -32768, 0", "STEER 1, 32767, 0", "STEER 1, 0xFFFF, 0"].map (fun l => Asm.assembleLine noCodes l.toList) =
        [.ok [0x18008000], .ok [0x18007FFF], .ok [0x1800FFFF]] ∧
      ["STEER 1, -32769, 0", "STEER 1, 32768, 0", "STEER 1, 0x10000, 0"].map
        (fun l => Asm.assembleLine noCodes l.toList) = List.replicate 3 (.error .outOfRange) := by decide
theorem witness_AssemblerRejectsOutOfRange_enable :
    ["STEER 0, 0, 0", "STEER 0x1, 0, 0", "STEER OFF, 0, 255", "STEER ON, 0, 0xFF"].map
        (fun l => Asm.assembleLine noCodes l.toList) =
        [.ok [0x10000000], .ok [0x18000000], .ok [0x10FF0000], .ok [0x18FF0000]] ∧
      ["STEER -1, 0, 0", "STEER 0x2, 0, 0", "STEER 1, 0, 256"].map (fun l => Asm.assembleLine noCodes l.toList) =
        List.replicate 3 (.error .outOfRange) ∧
      Asm.assembleLine noCodes "STEER UP_2ND, 0, 0".toList = .error .badOperand := by decide
theorem witness_AssemblerRejectsOutOfRange_byte :
    ["EPB 0", "EPB 0xFF", "CKADD 255", "STALK 0, 255", "OBSCKS 0, 0xFF"].map
        (fun l => Asm.assembleLine noCodes l.toList) =
        [.ok [0x20000000], .ok [0x20FF0000], .ok [0x60FF0000], .ok [0x30FF0000], .ok [0x40FF0000]] ∧
      ["EPB -1", "EPB 0x100", "CKADD 256", "STALK 0, 256", "OBSCKS 0, 0x100"].map
        (fun l => Asm.assembleLine noCodes l.toList) = List.replicate 5 (.error .outOfRange) := by decide
theorem witness_AssemblerRejectsOutOfRange_state_key_id :
    ["STALK 63, 0", "STALK 0x3F, 0", "OBSCKS 65535, 0", "CKINIT 0xFFFF", "CKSUM 65535, 0xFF"].map
        (fun l => Asm.assembleLine noCodes l.toList) =
        [.ok [0x3000003F], .ok [0x3000003F], .ok [0x4000FFFF], .ok [0x5000FFFF], .ok [0x5000FFFF, 0x60FF0000]] ∧
      ["STALK -1, 0", "STALK 0x40, 0", "OBSCKS 65536, 0", "CKINIT 0x10000", "CKSUM 65536", "CKSUM 0, 0x100"].map
        (fun l => Asm.assembleLine noCodes l.toList) = List.replicate 6 (.error .outOfRange) := by decide
theorem witness_AssemblerRejectsOutOfRange_word :
    Asm.assembleLine noCodes ".word 4294967295".toList = .ok [0xFFFFFFFF] ∧
      Asm.assembleLine noCodes ".word 0x100000000".toList = .error .outOfRange := by decide
theorem witness_AssemblerRejectsOutOfRange_names :
    Asm.assembleLine noCodes "STALK UP_1ST, 0".toList = .ok [0x30000010] ∧
      Asm.assembleLine noCodes "OBSCKS UP_2ND, 0".toList = .ok [0x40000004] ∧
      Asm.assembleLine ⟨some 63, none⟩ "STALK DN_2ND, 0".toList = .ok [0x3000003F] ∧
      Asm.assembleLine ⟨none, some 64⟩ "STALK DN_1ST, 0".toList = .error .outOfRange ∧
      Asm.assembleLine ⟨none, some 64⟩ "OBSCKS DN_1ST, 0".toList = .ok [0x40000040] ∧
      Asm.assembleLine ⟨none, some 64⟩ "OBSCKS DN_2ND, 0".toList = .error .badOperand := by decide

/-! ## Witnesses: concrete inputs that meet the hypotheses of the statements -/

/-- An input sample with nothing asserted. -/
def idle : Pins := ⟨false, false, 0, false⟩

/-- Samples that reset, take, hold, and accept `EPB 5`. -/
def resetPins : Pins := ⟨true, true, 0x20050000, true⟩
def takePins : Pins := ⟨false, false, 0, true⟩
def epbPins : Pins := ⟨false, true, 0x20050000, false⟩

theorem witness_ResetEdgeRestoresResetValues : (samplePins (stateWith 0x5A true [resetPins])).rst = true := by decide

theorem witness_StepFollowsEdgeRules :
    (samplePins (stateWith 1 true [resetPins])).rst = true ∧
    ((samplePins (stateWith 1 true [takePins])).rst = false ∧ (stateWith 1 true [takePins]).pend = true ∧
      (samplePins (stateWith 1 true [takePins])).rspReady = true) ∧
    ((samplePins (stateWith 1 true [epbPins])).rst = false ∧ (stateWith 1 true [epbPins]).pend = true ∧
      (samplePins (stateWith 1 true [epbPins])).rspReady = false) ∧
    ((samplePins (stateWith 1 false [epbPins])).rst = false ∧ (stateWith 1 false [epbPins]).pend = false ∧
      (samplePins (stateWith 1 false [epbPins])).cmdValid = true) ∧
    ((samplePins (stateWith 1 false [takePins])).rst = false ∧ (stateWith 1 false [takePins]).pend = false ∧
      (samplePins (stateWith 1 false [takePins])).cmdValid = false) := by decide

theorem witness_StepRunsDecodedCommand :
    (accepts (samplePins (stateWith 1 false [epbPins])) (stateWith 1 false [epbPins]) = true ∧
      decode (samplePins (stateWith 1 false [epbPins])).cmdData = .ok (.epb 5)) ∧
    decodeTableWord 32 0x20050000 = some (.epb 5) := by decide

theorem witness_DecodeOfEncodeIsInstruction : (Instr.stalk 63 255).wellFormed = true := by decide
theorem witness_EncodeOfDecodeIsWord : decode 0x18FFFFFF = .ok (.steer true 0xFFFF 0xFF) := by decide
theorem witness_DecoderAcceptsExactlyOpcodeMap :
    (⟨"STEER", 0xF7000000, 0x10000000⟩ : OpcodeRow) ∈ opcodeRows ∧
      (⟨"STEER", 0xF7000000, 0x10000000⟩ : OpcodeRow).covers 0x18C00000 = true := by decide

/-- Both clauses, at the edges of the range 0x7 to 0xF. -/
theorem witness_IllegalOpcodeGetsStatusOne :
    (0x00000000 : Word).extractLsb' 28 4 = 0 ∧ 7 ≤ ((0x70000000 : Word).extractLsb' 28 4).toNat ∧
      7 ≤ ((0xFFFFFFFF : Word).extractLsb' 28 4).toNat := by decide

theorem witness_ReservedBitsGetStatusTwo :
    (0x11000000 : Word).extractLsb' 28 4 = 1 ∧ (0x20050001 : Word).extractLsb' 28 4 = 2 ∧
      (0x30000040 : Word).extractLsb' 28 4 = 3 ∧ (0x48000010 : Word).extractLsb' 28 4 = 4 ∧
      (0x50010214 : Word).extractLsb' 28 4 = 5 ∧ (0x60050100 : Word).extractLsb' 28 4 = 6 := by decide

theorem witness_ErrorOnlyWritesResponse :
    decode 0x70000000 = .error .illegalOp ∧ decode 0x60050100 = .error .reservedField := by decide

theorem witness_SteerWordMeaning :
    (0x1805FED4 : Word).extractLsb' 28 4 = 1 ∧ (0x1805FED4 : Word).extractLsb' 24 3 = 0 ∧
      (0x1FC0FFFF : Word).extractLsb' 28 4 = 1 ∧ (0x1FC0FFFF : Word).extractLsb' 24 3 ≠ 0 := by decide
theorem witness_EpbWordMeaning :
    (0x20050000 : Word).extractLsb' 28 4 = 2 ∧ (0x20050001 : Word).extractLsb' 28 4 = 2 := by decide
theorem witness_StalkWordMeaning :
    (0x3000003F : Word).extractLsb' 28 4 = 3 ∧ ((0x3000003F : Word).extractLsb' 0 16).toNat = 63 ∧
      (0x30000040 : Word).extractLsb' 28 4 = 3 ∧ ((0x30000040 : Word).extractLsb' 0 16).toNat = 64 := by decide
theorem witness_ObscksWordMeaning :
    (0x40020010 : Word).extractLsb' 28 4 = 4 ∧ (0x48000010 : Word).extractLsb' 28 4 = 4 := by decide
theorem witness_CkinitWordMeaning :
    (0x5000FFFF : Word).extractLsb' 28 4 = 5 ∧ (0x50010214 : Word).extractLsb' 28 4 = 5 := by decide
theorem witness_CkaddWordMeaning :
    (0x60F00000 : Word).extractLsb' 28 4 = 6 ∧ (0x60050100 : Word).extractLsb' 28 4 = 6 := by decide

theorem witness_FrameHeaderFixedAndChecksummed : isBuilder (.stalk 4 0) = true := by decide
theorem witness_ConstantPayloadBits :
    isBuilder (.steer true 0 0) = true ∧ isBuilder (.epb 5) = true ∧ isBuilder (.stalk 4 0) = true := by decide
theorem witness_SteerIgnoresHighCounterBits :
    (0xFF : Byte).extractLsb' 0 6 = (0x3F : Byte).extractLsb' 0 6 := by decide

/-- A stream with an error word and a builder among its CKADDs. -/
theorem witness_StreamingComputesChecksum :
    ∀ w ∈ ([0x60010000, 0x70000000, 0x60050100, 0x20050000, 0x60050000] : List Word), isCkinit w = false := by
  simp only [List.forall_mem_cons]
  exact ⟨rfl, rfl, rfl, rfl, rfl, fun _ h => absurd h List.not_mem_nil⟩

/-- Among three keys that are neither 4 nor 16, one is no DN code, whatever the DN codes are. -/
theorem exists_unknown_key (d2 d1 : Half) :
    ∃ k : Half, k ≠ 4 ∧ k ≠ d2 ∧ k ≠ 16 ∧ k ≠ d1 := by
  by_cases h0 : (0 : Half) ≠ d2 ∧ (0 : Half) ≠ d1
  · exact ⟨0, by decide, h0.1, by decide, h0.2⟩
  by_cases h1 : (1 : Half) ≠ d2 ∧ (1 : Half) ≠ d1
  · exact ⟨1, by decide, h1.1, by decide, h1.2⟩
  refine ⟨2, by decide, ?_, by decide, ?_⟩ <;> rintro rfl <;>
    simp only [ne_eq, not_and_or, not_not] at h0 h1 <;> rcases h0 with h | h <;> rcases h1 with h' | h' <;>
    first
      | exact absurd h (by decide)
      | exact absurd h' (by decide)
      | exact absurd (h.trans h'.symm) (by decide)

/-- The clauses of the fixed misses: an unknown key; the first counter past 15; the unmeasured entry; and a point the
table leaves without an entry. -/
theorem witness_ObscksFixedMisses :
    (∃ k : Half, k ≠ 4 ∧ k ≠ Config.stalkCodeDn2nd ∧ k ≠ 16 ∧ k ≠ Config.stalkCodeDn1st) ∧
      15 < (16 : Byte).toNat ∧ ((16 : Half) = 16 ∧ (2 : Byte) = 2) ∧ Config.obsTable 16 2 = none := by
  refine ⟨exists_unknown_key _ _, by decide, ⟨rfl, rfl⟩, ?_⟩
  simp [Config.obsTable, Config.restrictTable, Config.up1st]

theorem witness_CompleteRowsAlwaysHit :
    Config.ObsTable2ndComplete 8 (fun k _ => if k = 4 ∨ k = 8 then some 0x56 else none) ∧ (15 : Byte).toNat ≤ 15 := by
  refine ⟨fun c => ⟨rfl, rfl⟩, by decide⟩

theorem witness_AccumulatorWrittenOnlyByChecksumCommands :
    (nextOf (step (stateWith 0x16 false [⟨false, true, 0x60010000, false⟩]))).map (·.acc) ≠ some 0x16 := by decide

theorem witness_PendingBitFollowsHandshake :
    (samplePins (stateWith 0 true [resetPins])).rst = true ∧
      accepts epbPins (stateWith 0 false [epbPins]) = true ∧
      ((stateWith 0 true [takePins]).pend = true ∧ (samplePins (stateWith 0 true [takePins])).rspReady = true) ∧
      ((samplePins (stateWith 0 true [idle])).rst = false ∧ accepts idle (stateWith 0 true [idle]) = false ∧
        takes idle (stateWith 0 true [idle]) = false) := by decide

theorem witness_InterleavingLeavesBuildersAlone : leavesAcc (.obscks 16 2) = true ∧ leavesAcc (.epb 5) = true := by decide

theorem witness_AcceptedWordWritesWholeResponse :
    (stateWith 7 false []).acc = (stateWith 7 true [epbPins]).acc := by decide

theorem witness_ResponseDataIsStable :
    (samplePins (stateWith 0 true [epbPins])).rst = false ∧ accepts epbPins (stateWith 0 true [epbPins]) = false := by decide

theorem witness_UnusedInputsAreIgnored :
    (stateWith 0 true []).pend = true ∧ resetPins.rst = true ∧ (stateWith 0 false []).pend = false ∧
      (idle.rst = false ∧ idle.cmdValid = false) := by decide

theorem witness_AtMostOneCommandEveryTwoEdges :
    accepts (samplePins (stateWith 0 false [epbPins, takePins])) (stateWith 0 false [epbPins, takePins]) = true ∧
      (nextOf (step (stateWith 0 false [epbPins, takePins]))).map (fun t => takes (samplePins t) t) = some true := by
  decide

theorem witness_UntakenResponseStallsBlock :
    (stateWith 0 true [epbPins, idle]).pend = true ∧ neverTaken 2 (stateWith 0 true [epbPins, idle]) := by
  refine ⟨rfl, rfl, rfl, fun t h => ?_⟩
  cases h
  exact ⟨rfl, rfl, fun _ _ => trivial⟩

theorem witness_EdgesRefineTransactions :
    resetFree 3 (stateWith 0 false [epbPins, takePins, epbPins]) ∧
      (samplePins (stateWith 0 true [resetPins])).rst = true := by
  refine ⟨⟨rfl, fun t h => ?_⟩, rfl⟩
  cases h
  refine ⟨rfl, fun t h => ?_⟩
  cases h
  exact ⟨rfl, fun _ _ => trivial⟩

/-- A state that meets the invariant, and a next state of it. -/
theorem witness_StepKeepsCanonicalResponse :
    ResponseCanonical (stateWith 0 false [epbPins]) ∧ ∃ t, step (stateWith 0 false [epbPins]) = .next t := by
  refine ⟨⟨by decide, by decide, by decide, by decide, by decide, by decide, by decide⟩, _, rfl⟩

end Sys2Proof.Tests
end

section
/-! The family of spec/00_scope.md: the open parameters (R7, R8), the lookup with complete 2ND rows (R7 item 3), and
commands interleaved with others (R11). -/

namespace Sys2Proof.Proofs

open Sys2Proof.Machine Sys2Proof.Laws Sys2Proof.Spec

/-! ## The parameters -/

/-- Leaving out the indices of 4 and 16 keeps a code away from both UP codes. -/
theorem ne_up_of_toNat_eq_skip {z : Half} {i : Nat} (h : z.toNat = Config.skip 4 (Config.skip 15 i)) :
    z ≠ Config.up2nd ∧ z ≠ Config.up1st := by
  constructor
  · rintro rfl
    exact skip_ne 4 _ h.symm
  · rintro rfl
    have h16 : Config.skip 4 (Config.skip 15 i) = Config.skip 4 15 := h.symm
    exact skip_ne 15 i (skip_inj.mp h16)

theorem dn1stOf_ne_dn2ndOf (a : Fin 65534) (b : Fin 65533) : Config.dn1stOf a b ≠ Config.dn2ndOf a := by
  intro h
  have hskip := congrArg BitVec.toNat h
  rw [dn1stOf_toNat, dn2ndOf_toNat, skip_inj, skip_inj] at hskip
  exact skip_ne a.val b.val hskip

/-- R8 for every choice of the two DN codes that Config allows. -/
theorem stalkCodes_nodup (a : Fin 65534) (b : Fin 65533) :
    [Config.up2nd, Config.dn2ndOf a, Config.up1st, Config.dn1stOf a b].Nodup := by
  obtain ⟨h2_up2nd, h2_up1st⟩ := ne_up_of_toNat_eq_skip (dn2ndOf_toNat a)
  obtain ⟨h1_up2nd, h1_up1st⟩ := ne_up_of_toNat_eq_skip (dn1stOf_toNat a b)
  have hup : Config.up2nd ≠ Config.up1st := by decide
  simp [hup, h2_up2nd.symm, h2_up1st, h1_up2nd.symm, h1_up1st.symm, (dn1stOf_ne_dn2ndOf a b).symm]

/-- The converse of `restrictTable_of_admissible`: R7 items 1 and 2 hold of every restricted table. -/
theorem restrictTable_admissible (d2 d1 : Half) (raw : Config.ObsTable) :
    Config.ObsAdmissible d2 d1 (Config.restrictTable d2 d1 raw) := by
  refine ⟨fun k c hk => ?_, ?_⟩
  · simp [Config.restrictTable, hk]
  · simp [Config.restrictTable]

/-- Settles O33: the codes are distinct and the table is admissible by how Config builds them, at whatever index and
raw observations. -/
theorem parametersAreAdmissible : Obligations.ParametersAreAdmissible :=
  ⟨stalkCodes_nodup Config.dn2ndIndex Config.dn1stIndex, restrictTable_admissible _ _ Config.rawObservation⟩

/-! ## The lookup -/

@[simp] theorem lookupRecord_hit (entry : Option Byte) : (lookupRecord entry).hit = entry.isSome := by
  cases entry <;> rfl

/-- Up to 15 the counter is narrowed without loss and the ROM is read (R82). -/
theorem observedEntry_of_le {ctr : Byte} (h : ctr.toNat ≤ 15) (table : Config.ObsTable) (key : Half) :
    observedEntry table key ctr = table key (ctr.extractLsb' 0 4) :=
  if_pos h

/-- Settles O36: the lookup reads the table at the narrowed counter, where the premise says both rows hold an entry. -/
theorem completeRowsAlwaysHit : Obligations.CompleteRowsAlwaysHit := by
  intro dn2nd table hcomplete ctr hctr
  simpa only [lookupRecord_hit, observedEntry_of_le hctr] using hcomplete (ctr.extractLsb' 0 4)

/-! ## Interleaved commands -/

/-- The round trip of R42 to R48: the opcode is the one assigned, and the unused fields that R50 checks are 0. -/
@[simp] theorem decode_encode (i : Instr) : decode (encode i) = .ok i := by
  cases i with
  | steer en torque ctr => simp [encode, decode_by_fields (op := .steer), opcodeOf]
  | epb ctr => simp [encode, decode_by_fields (op := .epb), opcodeOf]
  | stalk st ctr =>
    have hhigh : st.setWidth 16 &&& 65472#16 = 0#16 := EncodeRow.state_high_zero st
    simp [encode, decode_by_fields (op := .stalk), opcodeOf, hhigh]
  | obscks key ctr => simp [encode, decode_by_fields (op := .obscks), opcodeOf]
  | ckinit id => simp [encode, decode_by_fields (op := .ckinit), opcodeOf]
  | ckadd b => simp [encode, decode_by_fields (op := .ckadd), opcodeOf]

/-- Accepting the word of an instruction runs that instruction. -/
theorem execute_encode (i : Instr) (s : State) : execute (encode i) s = exec i s := by
  simp only [execute, decode_encode]

/-- A builder or OBSCKS answers one record, the same in every state, and does nothing else (R65, R85). -/
theorem exec_of_leavesAcc {i : Instr} (h : leavesAcc i = true) : ∃ r, ∀ s, exec i s = .next (respond r s) := by
  cases i with
  | steer en torque ctr => exact ⟨_, fun _ => rfl⟩
  | epb ctr => exact ⟨_, fun _ => rfl⟩
  | stalk st ctr => exact ⟨_, fun _ => rfl⟩
  | obscks key ctr => exact ⟨_, fun _ => rfl⟩
  | ckinit id => cases h
  | ckadd b => cases h

/-- Settles O39: the words before always reach a state, and the command's record does not depend on that state. -/
theorem interleavingLeavesBuildersAlone : Obligations.InterleavingLeavesBuildersAlone := by
  intro i others s hi
  obtain ⟨t, ht⟩ := executeAll_next others s
  obtain ⟨r, hr⟩ := exec_of_leavesAcc hi
  have hword (x : State) : execute (encode i) x = .next (respond r x) := (execute_encode i x).trans (hr x)
  exact ⟨t, respond r t, respond r s, ht, hword t, hword s, rfl, rfl, rfl⟩

end Sys2Proof.Proofs
end

section
/-! The family of spec/10_state.md: the response register holds a canonical record at every edge (R17, R25, R26), what
changes `ACC` and `PEND` (R15, R16), and the output ports (R22, R51). -/

namespace Sys2Proof.Proofs

open Sys2Proof.Machine Sys2Proof.Laws Sys2Proof.Spec

/-! ## What an accepted word leaves in `ACC` and `RSP` -/

/-- The record a word is answered with, legal or not, given `ACC` before it. -/
def wordRecord (w : Word) (acc : Byte) : Rsp :=
  match decode w with
  | .ok i => recordOf i acc
  | .error e => errorRecord (statusOf e)

/-- What a word, legal or not, makes of `ACC`. -/
def wordAcc (w : Word) (acc : Byte) : Byte :=
  match decode w with
  | .ok i => accAfter i acc
  | .error _ => acc

/-- Everything an accepted word does: the two fields it computes depend on the word and `ACC` alone (R26). -/
theorem execute_eq (w : Word) (s : State) :
    execute w s = .next { s with acc := wordAcc w s.acc, rsp := wordRecord w s.acc, pend := true } := by
  unfold wordAcc wordRecord
  obtain ⟨i, hi, h⟩ | ⟨e, he, h⟩ := execute_cases w s
  · rw [h, exec_eq, hi]
  · rw [h, he]
    rfl

/-! ## The payload in `DATA` -/

theorem padPayload_getElem (q : List Byte) (i : Fin 8) : (padPayload q)[i] = q.getD i.val 0 := by
  fin_cases i <;> rfl

/-- `DATA` is the payload and zeros after it (R52). -/
theorem padPayload_toList {q : List Byte} (h : q.length ≤ 8) :
    (padPayload q).toList = q ++ List.replicate (8 - q.length) 0 := by
  apply List.ext_getElem
  · simp; omega
  · intro i hi _
    have hi8 : i < 8 := by simpa using hi
    have hget := padPayload_getElem q ⟨i, hi8⟩
    rw [Fin.getElem_fin] at hget
    rw [Vector.getElem_toList, hget, List.getElem_append]
    split_ifs with hlt
    · exact List.getD_eq_getElem _ _ hlt
    · rw [List.getElem_replicate]
      exact List.getD_eq_default _ _ (Nat.le_of_not_lt hlt)

section Builder

variable {id : Half} {p : List Byte} {bus : Byte}

theorem buildRecord_dlc_toNat (hlen : p.length < 8) : (buildRecord id p bus).dlc.toNat = p.length + 1 := by
  simp [buildRecord]
  omega

/-- `DATA` of a builder: its payload, the checksum, zeros (R67). -/
theorem buildRecord_data_toList (hlen : p.length < 8) :
    (buildRecord id p bus).data.toList = p ++ checksum id p :: List.replicate (7 - p.length) 0 := by
  simp [buildRecord, padPayload_toList (q := p ++ [checksum id p]) (by simpa using hlen)]

/-- R76: a builder's record carries the right checksum. -/
theorem buildRecord_roundTrip (hlen : p.length < 8) : (buildRecord id p bus).RoundTrip := by
  have hid : (buildRecord id p bus).id = id := rfl
  simp [Rsp.RoundTrip, Rsp.lastByte, Rsp.body, buildRecord_dlc_toNat hlen, buildRecord_data_toList hlen, hid]

/-- What is left to show of each builder: its header (R77) and its constant bits (R79, R80). -/
theorem buildRecord_canonical (hlen : p.length < 8) (hheader : (buildRecord id p bus).HeaderOk)
    (hbits : (buildRecord id p bus).ConstantBits) : (buildRecord id p bus).Canonical where
  statusAssigned := by simp [buildRecord]
  qualZero := rfl
  dlcBound := by rw [buildRecord_dlc_toNat hlen]; exact hlen
  padding i hi := by
    rw [buildRecord_dlc_toNat hlen] at hi
    have hpast : (p ++ [checksum id p]).length ≤ i.val := by simpa using hi
    exact (padPayload_getElem _ i).trans (List.getD_eq_default _ _ hpast)
  frameKind _ := ⟨rfl, rfl, rfl, hheader, buildRecord_roundTrip hlen, hbits⟩
  otherKinds h := by cases h
  errorKind h := absurd rfl h

end Builder

/-! ## Every record the block writes is canonical -/

/-- Bit 7 of the STEER byte is 0 (R79). -/
theorem steerByte2_bit7 (en : Bool) (ctr : Byte) : (steerByte2 en ctr).extractLsb' 7 1 = 0 := by
  revert en ctr
  decide

/-- `4 s + 2` ends in the bits 10 (R80). -/
theorem stalkByte0_low (st : BitVec 6) : (stalkByte0 st).extractLsb' 0 2 = 2 := by
  revert st
  decide

theorem padPayload_nil_getElem (i : Fin 8) : (padPayload [])[i] = 0 := by
  rw [padPayload_getElem, List.getD_nil]

theorem scalarRecord_canonical (v : Byte) (hit : Bool) : (scalarRecord v hit).Canonical where
  statusAssigned := by simp
  qualZero := rfl
  dlcBound := by simp [scalarRecord]
  padding i _ := padPayload_nil_getElem i
  frameKind h := by cases h
  otherKinds _ := ⟨rfl, rfl, rfl⟩
  errorKind h := absurd rfl h

theorem errorRecord_canonical {status : BitVec 2} (h3 : status ≠ 3) : (errorRecord status).Canonical where
  statusAssigned := h3
  qualZero := rfl
  dlcBound := by simp [errorRecord]
  padding i _ := padPayload_nil_getElem i
  frameKind h := by cases h
  otherKinds _ := ⟨rfl, rfl, rfl⟩
  errorKind _ := ⟨rfl, rfl, rfl⟩

theorem lookupRecord_canonical (entry : Option Byte) : (lookupRecord entry).Canonical := by
  cases entry with
  | none => exact scalarRecord_canonical _ _
  | some v => exact scalarRecord_canonical _ _

theorem steerRecord_canonical (en : Bool) (torque : Half) (ctr : Byte) :
    (buildRecord idSteer (steerPayload en torque ctr) busSteer).Canonical := by
  refine buildRecord_canonical (by simp [steerPayload]) (.inl ⟨rfl, rfl, rfl⟩) ⟨?_, ?_, fun _ => ?_⟩
  · exact fun (h : idSteer = 0x214) => absurd h (by decide)
  · exact fun (h : idSteer = 0x45) => absurd h (by decide)
  · exact steerByte2_bit7 en ctr

theorem epbRecord_canonical (ctr : Byte) : (buildRecord idEpb (epbPayload ctr) busEpb).Canonical := by
  refine buildRecord_canonical (by simp [epbPayload]) (.inr (.inl ⟨rfl, rfl, rfl⟩)) ⟨fun _ => rfl, ?_, ?_⟩
  · exact fun (h : idEpb = 0x45) => absurd h (by decide)
  · exact fun (h : idEpb = 0x488) => absurd h (by decide)

theorem stalkRecord_canonical (st : BitVec 6) (ctr : Byte) :
    (buildRecord idStalk (stalkPayload st ctr) busStalk).Canonical := by
  refine buildRecord_canonical (by simp [stalkPayload]) (.inr (.inr ⟨rfl, rfl, rfl⟩)) ⟨?_, fun _ => ?_, ?_⟩
  · exact fun (h : idStalk = 0x214) => absurd h (by decide)
  · exact ⟨stalkByte0_low st, rfl, rfl, rfl, rfl, rfl⟩
  · exact fun (h : idStalk = 0x488) => absurd h (by decide)

theorem recordOf_canonical (i : Instr) (acc : Byte) : (recordOf i acc).Canonical := by
  cases i with
  | steer en torque ctr => exact steerRecord_canonical en torque ctr
  | epb ctr => exact epbRecord_canonical ctr
  | stalk st ctr => exact stalkRecord_canonical st ctr
  | obscks key ctr => exact lookupRecord_canonical _
  | ckinit id => exact scalarRecord_canonical _ _
  | ckadd b => exact scalarRecord_canonical _ _

/-- R55: neither error is reported with the reserved status. -/
theorem statusOf_ne_three (e : DecodeError) : statusOf e ≠ 3 := by
  cases e <;> decide

theorem wordRecord_canonical (w : Word) (acc : Byte) : (wordRecord w acc).Canonical := by
  unfold wordRecord
  cases decode w with
  | ok i => exact recordOf_canonical i acc
  | error e => exact errorRecord_canonical (statusOf_ne_three e)

/-! ## The invariant -/

/-- `RSP` after reset is the scalar 0 without a hit (R25). -/
theorem rspReset_canonical : Rsp.reset.Canonical :=
  scalarRecord_canonical 0 false

/-- Settles O1: each clause is one field of the reset literal. -/
theorem resetStateHoldsResetValues : Obligations.ResetStateHoldsResetValues :=
  ⟨rfl, rfl, rfl, rfl, rfl, rfl, rfl, rfl, rfl, rfl, padPayload_nil_getElem⟩

/-- Settles O48: `RSP` is at its reset value. -/
theorem resetStateIsCanonical : Obligations.ResetStateIsCanonical :=
  rspReset_canonical

/-- Settles O47: an edge leaves `RSP` as it was, resets it, or writes the record of an accepted word. -/
theorem stepKeepsCanonicalResponse : Obligations.StepKeepsCanonicalResponse := by
  intro s t hcanon hstep
  have hkept : (consumePins s).rsp.Canonical := by rwa [consumePins_rsp]
  have ht {u : State} (h : step s = .next u) : t = u := Host.Outcome.next.inj (hstep.symm.trans h)
  obtain ⟨_, h⟩ | ⟨_, _, _, h⟩ | ⟨_, _, _, h⟩ | ⟨_, _, _, h⟩ | ⟨_, _, _, h⟩ := step_cases s
  · obtain rfl := ht h
    exact rspReset_canonical
  · obtain rfl := ht h
    exact hkept
  · obtain rfl := ht h
    exact hkept
  · obtain rfl := ht (h.trans (execute_eq _ _))
    exact wordRecord_canonical _ _
  · obtain rfl := ht h
    exact hkept

/-! ## The record of one word -/

theorem data_eq_zero_of_dlc_eq_zero {r : Rsp} (h : r.Canonical) (hdlc : r.dlc = 0) (k : Fin 8) : r.data[k] = 0 :=
  h.padding k (by simp [hdlc])

/-- R54: a canonical record with an error status has nothing but the status. -/
theorem eq_specError_of_status_ne_zero {r : Rsp} (h : r.Canonical) (hstatus : r.status ≠ 0) :
    r = specError r.status := by
  obtain ⟨hframe, hhit, hval⟩ := h.errorKind hstatus
  obtain ⟨hid, hbus, hdlc⟩ := h.otherKinds hframe
  have hqual := h.qualZero
  have hdata : r.data = padPayload [] := by
    apply Vector.ext
    intro i hi
    exact (data_eq_zero_of_dlc_eq_zero h hdlc ⟨i, hi⟩).trans (padPayload_nil_getElem ⟨i, hi⟩).symm
  cases r
  simp only at hframe hhit hval hid hbus hdlc hqual hdata
  subst hframe hhit hval hid hbus hdlc hqual hdata
  rfl

/-- Settles O40: the record is `wordRecord` of the word and `ACC`, and its unused fields are 0 because it is
canonical. -/
theorem acceptedWordWritesWholeResponse : Obligations.AcceptedWordWritesWholeResponse := by
  intro w s s' hacc
  have hcanon := wordRecord_canonical w s.acc
  refine ⟨_, _, execute_eq w s, execute_eq w s', ?_, ?_, hcanon.qualZero, ?_, ?_, ?_⟩
  · exact congrArg (wordRecord w) hacc
  · exact congrArg (wordAcc w) hacc
  · intro hframe
    obtain ⟨hstatus, hhit, hval, _⟩ := hcanon.frameKind hframe
    exact ⟨hstatus, hhit, hval⟩
  · intro hframe
    obtain ⟨hid, hbus, hdlc⟩ := hcanon.otherKinds hframe
    exact ⟨hid, hbus, hdlc, data_eq_zero_of_dlc_eq_zero hcanon hdlc⟩
  · exact eq_specError_of_status_ne_zero hcanon

/-! ## `ACC` -/

/-- R15: a word that changes `ACC` is a CKINIT or a CKADD. -/
theorem decode_of_wordAcc_ne {w : Word} {acc : Byte} (h : wordAcc w acc ≠ acc) :
    (∃ id, decode w = .ok (.ckinit id)) ∨ ∃ b, decode w = .ok (.ckadd b) := by
  unfold wordAcc at h
  cases hw : decode w with
  | error e => exact absurd (by rw [hw]) h
  | ok i =>
    rw [hw] at h
    cases i with
    | ckinit id => exact .inl ⟨id, rfl⟩
    | ckadd b => exact .inr ⟨b, rfl⟩
    | steer en torque ctr => exact absurd rfl h
    | epb ctr => exact absurd rfl h
    | stalk st ctr => exact absurd rfl h
    | obscks key ctr => exact absurd rfl h

theorem accepts_iff (p : Pins) (s : State) :
    accepts p s = true ↔ p.cmdValid = true ∧ s.pend = false ∧ p.rst = false := by
  simp [accepts, cmdReady]

theorem takes_iff (p : Pins) (s : State) :
    takes p s = true ↔ s.pend = true ∧ p.rspReady = true ∧ p.rst = false := by
  simp [takes, rspValid, and_assoc]

/-- Settles O37: of the edges without reset only an accepting one touches `ACC`, and that by `wordAcc`. -/
theorem accumulatorWrittenOnlyByChecksumCommands : Obligations.AccumulatorWrittenOnlyByChecksumCommands := by
  intro s
  obtain ⟨hrst, h⟩ | ⟨_, _, _, h⟩ | ⟨_, _, _, h⟩ | ⟨hrst, hpend, hvalid, h⟩ | ⟨_, _, _, h⟩ := step_cases s
  · exact ⟨_, h, fun _ => .inl hrst⟩
  · exact ⟨_, h, fun hne => absurd (consumePins_acc s) hne⟩
  · exact ⟨_, h, fun hne => absurd (consumePins_acc s) hne⟩
  · refine ⟨_, h.trans (execute_eq _ _), fun hne => .inr ⟨(accepts_iff _ _).mpr ⟨hvalid, hpend, hrst⟩, ?_⟩⟩
    rw [consumePins_acc] at hne
    exact decode_of_wordAcc_ne hne
  · exact ⟨_, h, fun hne => absurd (consumePins_acc s) hne⟩

/-! ## `PEND` -/

/-- Settles O38: the guards of each of the five cases of an edge decide which clauses speak of it. -/
theorem pendingBitFollowsHandshake : Obligations.PendingBitFollowsHandshake := by
  refine ⟨rfl, fun s => ?_⟩
  simp only [← Bool.not_eq_true, accepts_iff, takes_iff]
  obtain ⟨hrst, h⟩ | ⟨hrst, hpend, hready, h⟩ | ⟨hrst, hpend, hready, h⟩ | ⟨hrst, hpend, hvalid, h⟩ |
    ⟨hrst, hpend, hvalid, h⟩ := step_cases s
  · exact ⟨_, h, by simp [hrst]⟩
  · exact ⟨_, h, by simp [hrst, hpend, hready]⟩
  · exact ⟨_, h, by simp [hrst, hpend, hready]⟩
  · exact ⟨_, h.trans (execute_eq _ _), by simp [hrst, hpend, hvalid]⟩
  · exact ⟨_, h, by simp [hrst, hpend, hvalid]⟩

/-! ## The output ports -/

/-- A field of `n` bits stands at bit `lo` of a vector whose bits from `lo` on are the field's. -/
theorem extractLsb'_eq_of_getLsbD {m n : Nat} {x : BitVec m} {y : BitVec n} {lo : Nat}
    (h : ∀ j < n, x.getLsbD (lo + j) = y.getLsbD j) : x.extractLsb' lo n = y := by
  apply BitVec.eq_of_getLsbD_eq
  intro j hj
  rw [BitVec.getLsbD_extractLsb', h j hj]
  simp [hj]

/-- Settles O49: the ports are their definitions, and each field is read off the bits of `pack(RSP)`. -/
theorem outputPortsShowState : Obligations.OutputPortsShowState := by
  refine ⟨fun rst s => ⟨by simp [cmdReady], rfl, rfl⟩, fun r => ?_⟩
  and_intros
  all_goals
    apply extractLsb'_eq_of_getLsbD
    intro j hj
    simp (disch := omega) only [packRsp_getLsbD, ↓if_pos, ↓if_neg, Nat.add_sub_cancel_left, Nat.zero_add]

end Sys2Proof.Proofs
end

section
/-! The family of spec/20_memory.md: the torque's bytes in a payload (R32), and runs of edges against the transactions
they carry out (R38). -/

namespace Sys2Proof.Proofs

open Sys2Proof.Machine Sys2Proof.Laws Sys2Proof.Spec

/-! ## The torque in the payload -/

/-- R32: the high byte followed by the low byte is the torque. -/
theorem torqueHigh_append_torqueLow (torque : Half) : torqueHigh torque ++ torqueLow torque = torque := by
  have h := BitVec.extractLsb'_append_extractLsb'_eq_extractLsb' (x := torque) (start₁ := 0) (len₁ := 8)
    (start₂ := 8) (len₂ := 8) rfl
  exact h.trans BitVec.extractLsb'_eq_self

/-- Settles O28: the first two payload bytes of STEER are the torque's high and low byte. -/
theorem torqueIsBigEndian : Obligations.TorqueIsBigEndian :=
  fun en torque ctr s => ⟨_, exec_eq (.steer en torque ctr) s, rfl, rfl,
    congrArg BitVec.toInt (torqueHigh_append_torqueLow torque)⟩

/-! ## A sequence of accepted words, as a function of `ACC` -/

/-- `ACC` after a sequence of accepted words. -/
def accAfterWords (ws : List Word) (acc : Byte) : Byte :=
  ws.foldl (fun a w => wordAcc w a) acc

/-- The records a sequence of accepted words is answered with, given `ACC` before it. -/
def recordsOfWords : List Word → Byte → List Rsp
  | [], _ => []
  | w :: ws, acc => wordRecord w acc :: recordsOfWords ws (wordAcc w acc)

@[simp] theorem accAfterWords_nil (acc : Byte) : accAfterWords [] acc = acc := rfl
@[simp] theorem accAfterWords_singleton (w : Word) (acc : Byte) : accAfterWords [w] acc = wordAcc w acc := rfl
@[simp] theorem recordsOfWords_nil (acc : Byte) : recordsOfWords [] acc = [] := rfl
@[simp] theorem recordsOfWords_singleton (w : Word) (acc : Byte) : recordsOfWords [w] acc = [wordRecord w acc] := rfl

theorem accAfterWords_append (ws vs : List Word) (acc : Byte) :
    accAfterWords (ws ++ vs) acc = accAfterWords vs (accAfterWords ws acc) :=
  List.foldl_append

theorem recordsOfWords_append (ws vs : List Word) (acc : Byte) :
    recordsOfWords (ws ++ vs) acc = recordsOfWords ws acc ++ recordsOfWords vs (accAfterWords ws acc) := by
  induction ws generalizing acc with
  | nil => rfl
  | cons w ws ih => exact congrArg (wordRecord w acc :: ·) (ih (wordAcc w acc))

/-- What `Execute` along a sequence of words makes of `ACC` depends on the words and `ACC` alone. -/
theorem executeAll_acc (ws : List Word) (s : State) :
    ∃ u, executeAll ws s = .next u ∧ u.acc = accAfterWords ws s.acc := by
  induction ws generalizing s with
  | nil => exact ⟨s, rfl, rfl⟩
  | cons w ws ih =>
    simp only [executeAll, execute_eq]
    exact ih _

/-- So do its responses (R26). -/
theorem responses_eq_recordsOfWords (ws : List Word) (s : State) : responses ws s = recordsOfWords ws s.acc := by
  induction ws generalizing s with
  | nil => rfl
  | cons w ws ih =>
    simp only [responses, execute_eq, recordsOfWords, ih]

/-! ## One edge without reset -/

/-- The word accepted at the next edge, if there is one. -/
def acceptedAtEdge (s : State) : List Word :=
  if accepts (samplePins s) s then [(samplePins s).cmdData] else []

/-- The response taken at the next edge, if there is one. -/
def takenAtEdge (s : State) : List Rsp :=
  if takes (samplePins s) s then [s.rsp] else []

theorem acceptedWords_succ {n : Nat} {s t : State} (h : step s = .next t) :
    acceptedWords (n + 1) s = acceptedAtEdge s ++ acceptedWords n t := by
  simp only [acceptedWords, acceptedAtEdge, h]

theorem takenRecords_succ {n : Nat} {s t : State} (h : step s = .next t) :
    takenRecords (n + 1) s = takenAtEdge s ++ takenRecords n t := by
  simp only [takenRecords, takenAtEdge, h]

@[simp] theorem heldRecord_of_pend {s : State} (h : s.pend = true) : heldRecord s = [s.rsp] := by
  simp only [heldRecord, rspValid, h, if_true]

@[simp] theorem heldRecord_of_not_pend {s : State} (h : s.pend = false) : heldRecord s = [] := by
  simp [heldRecord, rspValid, h]

/-- R38 at one edge: what is taken, then held after it, is what was held before it, then the record of the word accepted
at it. -/
theorem step_refines {s : State} (hrst : (samplePins s).rst = false) :
    ∃ t, step s = .next t ∧ t.acc = accAfterWords (acceptedAtEdge s) s.acc ∧
      takenAtEdge s ++ heldRecord t = heldRecord s ++ recordsOfWords (acceptedAtEdge s) s.acc := by
  simp only [acceptedAtEdge, takenAtEdge, accepts_iff, takes_iff]
  obtain ⟨h1, _⟩ | ⟨_, hpend, hready, h⟩ | ⟨_, hpend, hready, h⟩ | ⟨_, hpend, hvalid, h⟩ | ⟨_, hpend, hvalid, h⟩ :=
    step_cases s
  · exact absurd (hrst.symm.trans h1) (by decide)
  · exact ⟨_, h, by simp [hrst, hpend, hready]⟩
  · exact ⟨_, h, by simp [hrst, hpend, hready]⟩
  · exact ⟨_, h.trans (execute_eq _ _), by simp [hrst, hpend, hvalid]⟩
  · exact ⟨_, h, by simp [hrst, hpend, hvalid]⟩

/-! ## Runs of edges -/

/-- R38 along a run: the edges carry out the transactions of the words they accept. -/
theorem run_refines {n : Nat} {s : State} (hfree : resetFree n s) :
    ∃ t, Host.Core.run Sys2Proof.core n s = .next t ∧ t.acc = accAfterWords (acceptedWords n s) s.acc ∧
      takenRecords n s ++ heldRecord t = heldRecord s ++ recordsOfWords (acceptedWords n s) s.acc := by
  induction n generalizing s with
  | zero => exact ⟨s, rfl, rfl, (List.append_nil _).symm⟩
  | succ n ih =>
    obtain ⟨hrst, hrest⟩ := hfree
    obtain ⟨u, hstep, hacc, hheld⟩ := step_refines hrst
    obtain ⟨t, hrun, hacc', hheld'⟩ := ih (hrest u hstep)
    rw [acceptedWords_succ hstep, takenRecords_succ hstep, accAfterWords_append, recordsOfWords_append, ← hacc]
    refine ⟨t, (run_succ hstep).trans hrun, hacc', ?_⟩
    rw [List.append_assoc, hheld', ← List.append_assoc, hheld, List.append_assoc]

/-- A reset edge discards the held response: it is not taken, and none is held after it (R101). -/
theorem step_reset_discards {s : State} (hrst : (samplePins s).rst = true) :
    ∃ t, step s = .next t ∧ takes (samplePins s) s = false ∧ heldRecord t = [] := by
  obtain ⟨_, h⟩ | ⟨h0, _⟩ | ⟨h0, _⟩ | ⟨h0, _⟩ | ⟨h0, _⟩ := step_cases s
  · exact ⟨_, h, by simp [takes, hrst], rfl⟩
  all_goals exact absurd (h0.symm.trans hrst) (by decide)

/-- Settles O46: a reset-free run refines the transactions of its accepted words, of which `ACC` and the responses are
functions. -/
theorem edgesRefineTransactions : Obligations.EdgesRefineTransactions := by
  refine ⟨fun n s hfree => ?_, fun s => step_reset_discards⟩
  obtain ⟨t, hrun, hacc, hheld⟩ := run_refines hfree
  obtain ⟨u, hexec, hacc'⟩ := executeAll_acc (acceptedWords n s) s
  rw [← responses_eq_recordsOfWords] at hheld
  exact ⟨t, u, hrun, hexec, hacc.trans hacc'.symm, responses_length _ _, hheld⟩

end Sys2Proof.Proofs
end

section
/-! The family of spec/30_encoding.md: the decoder against the encoder and the opcode map (R42 to R50), what STATUS and
FRAME say (R55), and the assembler (R57, R58). -/

namespace Sys2Proof.Proofs

open Sys2Proof.Machine Sys2Proof.Laws Sys2Proof.Spec

/-! ## Encoding and decoding -/

/-- The `OP` assigned to a command (R48). -/
def codeOf : Opcode → BitVec 4
  | .steer => 1
  | .epb => 2
  | .stalk => 3
  | .obscks => 4
  | .ckinit => 5
  | .ckadd => 6

theorem opcodeOf_eq_some_iff {code : BitVec 4} {op : Opcode} : opcodeOf code = some op ↔ code = codeOf op := by
  revert code
  cases op <;> decide

/-- When a word decodes, and to what: its `OP` is assigned and no must-be-0 bit is 1 (R92). -/
theorem decode_eq_ok_iff {w : Word} {i : Instr} :
    decode w = .ok i ↔ ∃ op, fieldOp w = codeOf op ∧ w &&& rsvMask op = 0 ∧ operandsOf op w = i := by
  simp only [← opcodeOf_eq_some_iff]
  cases hop : opcodeOf (fieldOp w) with
  | none => simp [decode_eq_illegal hop]
  | some op =>
    rw [decode_eq_of_opcode hop, ite_not]
    simp only [Option.some.injEq, exists_eq_left']
    split_ifs with hclear
    · simp only [Except.ok.injEq, hclear, true_and]
    · simp only [hclear, false_and]

/-- With `IMM16[15:6]` 0 nothing is lost by keeping the six bits of `stalk_state`. -/
theorem setWidth_state_of_high_zero {imm16 : Half} (h : imm16 &&& 0xFFC0 = 0) :
    (imm16.setWidth 6).setWidth 16 = imm16 := by
  have hmask : ∀ j < 16, 6 ≤ j → (0xFFC0 : Half).getLsbD j = true := by decide
  apply BitVec.eq_of_getLsbD_eq
  intro j hj
  rw [BitVec.getLsbD_setWidth, BitVec.getLsbD_setWidth]
  by_cases hlow : j < 6
  · simp [hj, hlow]
  · have hbit := congrArg (BitVec.getLsbD · j) h
    rw [BitVec.getLsbD_and, hmask j hj (by omega), Bool.and_true] at hbit
    simpa [hlow] using hbit.symm

/-- The fields that a command does not use are must-be-0 bits, so its operands hold all other bits of the word. -/
theorem encode_operandsOf {op : Opcode} {w : Word} (hop : fieldOp w = codeOf op) (hclear : w &&& rsvMask op = 0) :
    encode (operandsOf op w) = w := by
  rw [rsvMask_clear_iff] at hclear
  refine Eq.trans ?_ (packWord_fields w)
  rw [hop]
  cases op with
  | steer =>
    have he : BitVec.ofBool (fieldE w == 1) = fieldE w := ofBool_beq_one _
    simp only [operandsOf, encode, he, hclear, codeOf]
  | epb =>
    obtain ⟨he, hrsv, himm⟩ := hclear
    rw [he, hrsv, himm]
    rfl
  | stalk =>
    obtain ⟨he, hrsv, himm⟩ := hclear
    simp only [operandsOf, encode, state_field, setWidth_state_of_high_zero himm, he, hrsv, codeOf]
  | obscks =>
    obtain ⟨he, hrsv⟩ := hclear
    rw [he, hrsv]
    rfl
  | ckinit =>
    obtain ⟨he, hrsv, hctr⟩ := hclear
    rw [he, hrsv, hctr]
    rfl
  | ckadd =>
    obtain ⟨he, hrsv, himm⟩ := hclear
    rw [he, hrsv, himm]
    rfl

/-- Settles O6: the round trip from the instruction. -/
theorem decodeOfEncodeIsInstruction : Obligations.DecodeOfEncodeIsInstruction :=
  fun i _ => decode_encode i

/-- Settles O7: the round trip from the word, by the operands of its opcode. -/
theorem encodeOfDecodeIsWord : Obligations.EncodeOfDecodeIsWord := by
  intro w i h
  obtain ⟨op, hop, hclear, rfl⟩ := decode_eq_ok_iff.mp h
  exact encode_operandsOf hop hclear

/-- Settles O9: each word is the encoding of its instruction. -/
theorem specWordsDecode : Obligations.SpecWordsDecode :=
  ⟨decode_encode (.steer true 0xFFFF 15), decode_encode (.epb 233), decode_encode (.stalk 63 255),
    decode_encode (.obscks 16 2), decode_encode (.ckinit 0x214), decode_encode (.ckadd 0xF0)⟩

/-! ## The opcode map -/

/-- The row of the opcode map that a command has (R48). -/
def rowOfOpcode : Opcode → OpcodeRow
  | .steer => ⟨"STEER", 0xF7000000, 0x10000000⟩
  | .epb => ⟨"EPB", 0xFF00FFFF, 0x20000000⟩
  | .stalk => ⟨"STALK", 0xFF00FFC0, 0x30000000⟩
  | .obscks => ⟨"OBSCKS", 0xFF000000, 0x40000000⟩
  | .ckinit => ⟨"CKINIT", 0xFFFF0000, 0x50000000⟩
  | .ckadd => ⟨"CKADD", 0xFF00FFFF, 0x60000000⟩

theorem mem_opcodeRows_iff {r : OpcodeRow} : r ∈ opcodeRows ↔ ∃ op, rowOfOpcode op = r := by
  change r ∈ List.map rowOfOpcode [.steer, .epb, .stalk, .obscks, .ckinit, .ckadd] ↔ _
  rw [List.mem_map]
  refine exists_congr fun op => and_iff_right ?_
  cases op <;> decide

/-- The mask of a row is all of `OP` and the must-be-0 bits. -/
theorem rowOfOpcode_mask (op : Opcode) :
    (rowOfOpcode op).mask =
      packWord 0xF (fieldE (rsvMask op)) (fieldRsv (rsvMask op)) (fieldCtr (rsvMask op)) (fieldImm16 (rsvMask op)) := by
  cases op <;> decide

/-- The pattern of a row is its `OP` alone. -/
theorem rowOfOpcode_pattern (op : Opcode) : (rowOfOpcode op).pattern = packWord (codeOf op) 0 0 0 0 := by
  cases op <;> decide

theorem fieldOp_rsvMask (op : Opcode) : fieldOp (rsvMask op) = 0 := by
  cases op <;> decide

/-- A row's mask and match say in one comparison what R50 and R92 check in two. -/
theorem rowOfOpcode_covers_iff {op : Opcode} {w : Word} :
    (rowOfOpcode op).covers w = true ↔ fieldOp w = codeOf op ∧ w &&& rsvMask op = 0 := by
  have hall : fieldOp w &&& 0xF = fieldOp w := BitVec.and_allOnes
  have hmasked := word_and_eq_iff w 0 0 (fieldE (rsvMask op)) 0 (fieldRsv (rsvMask op)) 0 (fieldCtr (rsvMask op)) 0
    (fieldImm16 (rsvMask op)) 0
  rw [← fieldOp_rsvMask op, packWord_fields, fieldOp_rsvMask, ← zero_eq_packWord] at hmasked
  rw [hmasked, OpcodeRow.covers, beq_iff_eq, rowOfOpcode_mask, rowOfOpcode_pattern, word_and_eq_iff, hall]
  simp

/-- Settles O8: a row covers a word exactly when its command's decoding conditions hold, and a word has one `OP`. -/
theorem decoderAcceptsExactlyOpcodeMap : Obligations.DecoderAcceptsExactlyOpcodeMap := by
  refine ⟨fun w => ?_, fun w r r' hr hr' hcov hcov' => ?_⟩
  · simp [wordWellFormed, decode_eq_ok_iff, mem_opcodeRows_iff, rowOfOpcode_covers_iff]
  · obtain ⟨op, rfl⟩ := mem_opcodeRows_iff.mp hr
    obtain ⟨op', rfl⟩ := mem_opcodeRows_iff.mp hr'
    obtain ⟨hop, _⟩ := rowOfOpcode_covers_iff.mp hcov
    obtain ⟨hop', _⟩ := rowOfOpcode_covers_iff.mp hcov'
    have hsome := opcodeOf_eq_some_iff.mpr hop
    rw [opcodeOf_eq_some_iff.mpr hop'] at hsome
    rw [Option.some.inj hsome]


/-! ## The record a word is answered with (R55) -/

theorem wordRecord_of_ok {w : Word} {i : Instr} (h : decode w = .ok i) (acc : Byte) :
    wordRecord w acc = recordOf i acc := by
  simp only [wordRecord, h]

theorem wordRecord_of_error {w : Word} {e : DecodeError} (h : decode w = .error e) (acc : Byte) :
    wordRecord w acc = errorRecord (statusOf e) := by
  simp only [wordRecord, h]

@[simp] theorem lookupRecord_status (entry : Option Byte) : (lookupRecord entry).status = 0 := by
  cases entry <;> rfl

@[simp] theorem lookupRecord_frame (entry : Option Byte) : (lookupRecord entry).frame = false := by
  cases entry <;> rfl

@[simp] theorem recordOf_status (i : Instr) (acc : Byte) : (recordOf i acc).status = 0 := by
  cases i <;> simp [recordOf, buildRecord]

/-- The builders answer frames, the other commands scalars (R67, R81). -/
@[simp] theorem recordOf_frame (i : Instr) (acc : Byte) : (recordOf i acc).frame = isBuilder i := by
  cases i <;> simp [recordOf, buildRecord, isBuilder]

/-- The lengths of R77. -/
theorem dlc_of_frame {r : Rsp} (h : r.Canonical) (hframe : r.frame = true) : r.dlc = 3 ∨ r.dlc = 4 ∨ r.dlc = 8 := by
  obtain ⟨_, _, _, hheader, _⟩ := h.frameKind hframe
  obtain ⟨_, hdlc, _⟩ | ⟨_, hdlc, _⟩ | ⟨_, hdlc, _⟩ := hheader
  · exact .inr (.inl hdlc)
  · exact .inl hdlc
  · exact .inr (.inr hdlc)

theorem dlc_ne_zero_iff {r : Rsp} (h : r.Canonical) : r.dlc ≠ 0 ↔ r.frame = true := by
  constructor
  · intro hdlc
    by_contra hframe
    obtain ⟨_, _, h0⟩ := h.otherKinds (Bool.eq_false_of_not_eq_true hframe)
    exact hdlc h0
  · intro hframe
    obtain hdlc | hdlc | hdlc := dlc_of_frame h hframe <;> simp [hdlc]

/-- Settles O41: STATUS and FRAME are read off the record of each kind; DLC follows FRAME in every canonical record. -/
theorem statusAndFrameTellRecordKind : Obligations.StatusAndFrameTellRecordKind := by
  intro w s
  have hcanon := wordRecord_canonical w s.acc
  refine ⟨_, execute_eq w s, ?_⟩
  simp only [dlc_ne_zero_iff hcanon]
  cases hw : decode w with
  | ok i =>
    have hlen := dlc_of_frame hcanon
    rw [wordRecord_of_ok hw] at hlen ⊢
    simpa [Rsp.isFrame, Rsp.isScalar, Rsp.isError, statusOk] using hlen
  | error e =>
    rw [wordRecord_of_error hw]
    cases e <;> simp [Rsp.isFrame, Rsp.isScalar, Rsp.isError, statusOk, statusOf, statusIllegalOp, statusRsvdField]

/-! ## The pseudo-commands (R58) -/

/-- A run of CKADDs from a state that has the checksum of `sofar` in `ACC` and in VAL ends with VAL the checksum of all
the bytes. -/
theorem executeAll_ckadds {id : Half} (bytes : List Byte) {sofar : List Byte} {s : State}
    (hacc : s.acc = checksum id sofar) (hval : s.rsp.val = checksum id sofar) :
    ∃ t, executeAll (bytes.map fun b => encode (.ckadd b)) s = .next t ∧ t.rsp.val = checksum id (sofar ++ bytes) := by
  induction bytes generalizing s sofar with
  | nil => exact ⟨s, rfl, by rw [hval, List.append_nil]⟩
  | cons b bs ih =>
    have hnext : s.acc + b = checksum id (sofar ++ [b]) := by rw [checksum_append, hacc]
    simp only [List.map_cons, executeAll, execute_encode, exec_eq]
    rw [← List.singleton_append, ← List.append_assoc]
    exact ih hnext hnext

theorem statement_nop (codes : Asm.DnCodes) (ops : List Asm.Operand) :
    Asm.statement codes ['n', 'o', 'p'] ops = .error .unknownMnemonic := rfl

/-- Settles O32: CKINIT puts the checksum of no bytes into `ACC` and VAL, and the CKADDs go on from there. -/
theorem cksumExpandsToStream : Obligations.CksumExpandsToStream := by
  refine ⟨fun id bytes s => ⟨rfl, ?_⟩, statement_nop, fun codes => rfl⟩
  simp only [Asm.expand, executeAll, execute_encode, exec_eq]
  exact executeAll_ckadds bytes (sofar := []) rfl rfl


/-! ## Operands of the assembler and their ranges (R57) -/

theorem unsignedOperand_dec (bits : Nat) (n : Int) :
    if 0 ≤ n ∧ n < 2 ^ bits then ∃ v, Asm.unsignedOperand bits (.dec n) = .ok v ∧ (v.toNat : Int) = n
    else Asm.unsignedOperand bits (.dec n) = .error .outOfRange := by
  split_ifs with h
  · have hok : Asm.unsignedOperand bits (.dec n) = .ok (BitVec.ofInt bits n) := if_pos h
    exact ⟨_, hok, ((ofInt_eq_iff h _).mp rfl).symm⟩
  · exact if_neg h

theorem unsignedOperand_hex (bits n : Nat) :
    if n < 2 ^ bits then ∃ v, Asm.unsignedOperand bits (.hex n) = .ok v ∧ v.toNat = n
    else Asm.unsignedOperand bits (.hex n) = .error .outOfRange := by
  split_ifs with h
  · have hok : Asm.unsignedOperand bits (.hex n) = .ok (BitVec.ofNat bits n) := if_pos h
    exact ⟨_, hok, by rw [BitVec.toNat_ofNat, Nat.mod_eq_of_lt h]⟩
  · exact if_neg h

theorem toNat_eq_toInt_emod (t : Half) : (t.toNat : Int) = t.toInt % 2 ^ 16 := by
  have hlt := t.isLt
  rw [BitVec.toInt_eq_toNat_cond]
  split_ifs <;> omega

theorem torqueOperand_dec (n : Int) :
    if -32768 ≤ n ∧ n ≤ 32767 then ∃ t, Asm.torqueOperand (.dec n) = .ok t ∧ (t.toNat : Int) = n % 2 ^ 16 ∧ t.toInt = n
    else Asm.torqueOperand (.dec n) = .error .outOfRange := by
  split_ifs with h
  · have hok : Asm.torqueOperand (.dec n) = .ok (BitVec.ofInt 16 n) := if_pos h
    have hint : n = (BitVec.ofInt 16 n).toInt := by simpa using torqueOperand_ok_iff.mp hok
    exact ⟨_, hok, by rw [toNat_eq_toInt_emod, ← hint], hint.symm⟩
  · exact if_neg h

theorem torqueOperand_hex (n : Nat) :
    if n ≤ 0xFFFF then ∃ t, Asm.torqueOperand (.hex n) = .ok t ∧ t.toNat = n
    else Asm.torqueOperand (.hex n) = .error .outOfRange := by
  have h := unsignedOperand_hex 16 n
  have hrange : n < 2 ^ 16 ↔ n ≤ 0xFFFF := by omega
  simp only [hrange] at h
  exact h

theorem enableOperand_of_out_of_range {o : Asm.Operand} (h : Asm.unsignedOperand 1 o = .error .outOfRange) :
    Asm.enableOperand o = .error .outOfRange := by
  cases o with
  | dec n => simp only [Asm.enableOperand, h]
  | hex n => simp only [Asm.enableOperand, h]
  | off => cases h
  | on => cases h
  | stalk name => cases h

theorem enableOperand_dec (n : Int) :
    Asm.enableOperand (.dec n) = if n = 0 then .ok false else if n = 1 then .ok true else .error .outOfRange := by
  split_ifs with h0 h1
  · rw [h0]; rfl
  · rw [h1]; rfl
  · exact enableOperand_of_out_of_range (if_neg (by omega))

theorem enableOperand_hex (n : Nat) :
    Asm.enableOperand (.hex n) = if n = 0 then .ok false else if n = 1 then .ok true else .error .outOfRange := by
  split_ifs with h0 h1
  · rw [h0]; rfl
  · rw [h1]; rfl
  · exact enableOperand_of_out_of_range (if_neg (by omega))

theorem stalkCode_eq_nameCode (codes : Asm.DnCodes) (name : Asm.StalkName) :
    Asm.stalkCode codes name = nameCode codes name := by
  cases name <;> rfl

theorem keyOperand_stalk_none {codes : Asm.DnCodes} {name : Asm.StalkName} (h : nameCode codes name = none) :
    Asm.keyOperand codes (.stalk name) = .error .badOperand := by
  simp only [Asm.keyOperand, stalkCode_eq_nameCode, h]

theorem stateOperand_stalk_none {codes : Asm.DnCodes} {name : Asm.StalkName} (h : nameCode codes name = none) :
    Asm.stateOperand codes (.stalk name) = .error .badOperand := by
  simp only [Asm.stateOperand, stalkCode_eq_nameCode, h]

theorem keyOperand_stalk_some {codes : Asm.DnCodes} {name : Asm.StalkName} {k : Half}
    (h : nameCode codes name = some k) : Asm.keyOperand codes (.stalk name) = .ok k := by
  simp only [Asm.keyOperand, stalkCode_eq_nameCode, h]

theorem stateOperand_stalk_some {codes : Asm.DnCodes} {name : Asm.StalkName} {k : Half}
    (h : nameCode codes name = some k) :
    if k.toNat ≤ 63 then ∃ v, Asm.stateOperand codes (.stalk name) = .ok v ∧ v.toNat = k.toNat
    else Asm.stateOperand codes (.stalk name) = .error .outOfRange := by
  simp only [Asm.stateOperand, stalkCode_eq_nameCode, h]
  split_ifs with hk
  · exact ⟨_, rfl, by rw [BitVec.toNat_setWidth]; omega⟩
  · rfl

/-! ## How an operand is written, against what its parser takes -/

theorem writesUnsigned_iff {bits : Nat} {o : Asm.Operand} {v : BitVec bits} :
    writesUnsigned o v ↔ Asm.unsignedOperand bits o = .ok v :=
  unsignedOperand_ok_iff.symm

theorem writesEnable_iff {o : Asm.Operand} {en : Bool} : writesEnable o en ↔ Asm.enableOperand o = .ok en := by
  cases en <;> exact enableOperand_ok_iff.symm

/-- A torque has one decimal in its range, that of its two's-complement value. -/
theorem writesTorque_iff {o : Asm.Operand} {t : Half} : writesTorque o t ↔ Asm.torqueOperand o = .ok t := by
  rw [torqueOperand_ok_iff, writesTorque]
  refine or_congr_left ⟨?_, ?_⟩
  · rintro ⟨n, hlo, hhi, rfl, hmod⟩
    have := toNat_eq_toInt_emod t
    have := BitVec.le_toInt t
    have := BitVec.toInt_lt (x := t)
    congr 1
    omega
  · rintro rfl
    have := BitVec.le_toInt t
    have := BitVec.toInt_lt (x := t)
    exact ⟨_, by omega, by omega, rfl, toNat_eq_toInt_emod t⟩

theorem writesKey_iff {codes : Asm.DnCodes} {o : Asm.Operand} {key : Half} :
    writesKey codes o key ↔ Asm.keyOperand codes o = .ok key := by
  simp only [keyOperand_ok_iff, stalkCode_eq_nameCode]
  rfl

theorem writesState_iff {codes : Asm.DnCodes} {o : Asm.Operand} {st : BitVec 6} :
    writesState codes o st ↔ Asm.stateOperand codes o = .ok st := by
  simp only [stateOperand_ok_iff, stalkCode_eq_nameCode]
  rfl

theorem forall₂_writesUnsigned_iff {os : List Asm.Operand} {bytes : List Byte} :
    List.Forall₂ writesUnsigned os bytes ↔ Asm.byteOperands os = .ok bytes := by
  have hrel : (writesUnsigned : Asm.Operand → Byte → Prop) = fun o b => Asm.unsignedOperand 8 o = .ok b := by
    funext o b
    exact propext writesUnsigned_iff
  rw [hrel, byteOperands_ok_iff]

/-! ## Lines with a fixed number of operands -/

/-- What a line of one operand stands for. -/
def oneOperand {α : Type} (p : Asm.Operand → Except Asm.AsmError α) (f : α → Asm.Stmt) :
    List Asm.Operand → Except Asm.AsmError Asm.Stmt
  | [o] => do return f (← p o)
  | _ => .error .operandCount

/-- What a line of two operands stands for. -/
def twoOperands {α β : Type} (p : Asm.Operand → Except Asm.AsmError α) (q : Asm.Operand → Except Asm.AsmError β)
    (f : α → β → Asm.Stmt) : List Asm.Operand → Except Asm.AsmError Asm.Stmt
  | [o₁, o₂] => do return f (← p o₁) (← q o₂)
  | _ => .error .operandCount

theorem bind_eq_ok_iff {ε α β : Type} {x : Except ε α} {f : α → Except ε β} {b : β} :
    (x >>= f) = .ok b ↔ ∃ a, x = .ok a ∧ f a = .ok b := by
  cases x <;> simp [bind, Except.bind]

theorem map_eq_ok_iff {ε α β : Type} {x : Except ε α} {f : α → β} {b : β} :
    f <$> x = .ok b ↔ ∃ a, x = .ok a ∧ b = f a := by
  cases x <;> simp [Functor.map, Except.map, eq_comm]

section

variable {α β : Type} {p : Asm.Operand → Except Asm.AsmError α} {q : Asm.Operand → Except Asm.AsmError β}
  {ops : List Asm.Operand} {st : Asm.Stmt}

theorem oneOperand_ok_iff {f : α → Asm.Stmt} :
    oneOperand p f ops = .ok st ↔ ∃ o a, ops = [o] ∧ p o = .ok a ∧ st = f a := by
  match ops with
  | [] => simp [oneOperand]
  | [o] => simp [oneOperand, map_eq_ok_iff]
  | _ :: _ :: _ => simp [oneOperand]

theorem twoOperands_ok_iff {f : α → β → Asm.Stmt} :
    twoOperands p q f ops = .ok st ↔
      ∃ o₁ o₂ a b, ops = [o₁, o₂] ∧ p o₁ = .ok a ∧ q o₂ = .ok b ∧ st = f a b := by
  match ops with
  | [] => simp [twoOperands]
  | [_] => simp [twoOperands]
  | [o₁, o₂] => simp [twoOperands, bind_eq_ok_iff, map_eq_ok_iff]
  | _ :: _ :: _ :: _ => simp [twoOperands]

end

/-! ## The lines of each command

By definition `statement` is `oneOperand` or `twoOperands` of the command's parsers at each mnemonic with one or two
operands. -/

section

variable {codes : Asm.DnCodes} {ops : List Asm.Operand} {st : Asm.Stmt}

theorem statement_steer_ok_iff :
    Asm.statement codes ['s', 't', 'e', 'e', 'r'] ops = .ok st ↔
      ∃ o₁ o₂ o₃ en torque ctr, ops = [o₁, o₂, o₃] ∧ Asm.enableOperand o₁ = .ok en ∧
        Asm.torqueOperand o₂ = .ok torque ∧ Asm.unsignedOperand 8 o₃ = .ok ctr ∧
        st = .command (.steer en torque ctr) := by
  match ops with
  | [] => simp [Asm.statement]
  | [_] => simp [Asm.statement]
  | [_, _] => simp [Asm.statement]
  | [o₁, o₂, o₃] => simp [Asm.statement, bind_eq_ok_iff, map_eq_ok_iff]
  | _ :: _ :: _ :: _ :: _ => simp [Asm.statement]

theorem statement_epb_ok_iff :
    Asm.statement codes ['e', 'p', 'b'] ops = .ok st ↔
      ∃ o ctr, ops = [o] ∧ Asm.unsignedOperand 8 o = .ok ctr ∧ st = .command (.epb ctr) :=
  oneOperand_ok_iff (p := Asm.unsignedOperand 8) (f := fun ctr => .command (.epb ctr))

theorem statement_stalk_ok_iff :
    Asm.statement codes ['s', 't', 'a', 'l', 'k'] ops = .ok st ↔
      ∃ o₁ o₂ state ctr, ops = [o₁, o₂] ∧ Asm.stateOperand codes o₁ = .ok state ∧
        Asm.unsignedOperand 8 o₂ = .ok ctr ∧ st = .command (.stalk state ctr) :=
  twoOperands_ok_iff (p := Asm.stateOperand codes) (f := fun state ctr => .command (.stalk state ctr))

theorem statement_obscks_ok_iff :
    Asm.statement codes ['o', 'b', 's', 'c', 'k', 's'] ops = .ok st ↔
      ∃ o₁ o₂ key ctr, ops = [o₁, o₂] ∧ Asm.keyOperand codes o₁ = .ok key ∧
        Asm.unsignedOperand 8 o₂ = .ok ctr ∧ st = .command (.obscks key ctr) :=
  twoOperands_ok_iff (p := Asm.keyOperand codes) (f := fun key ctr => .command (.obscks key ctr))

theorem statement_ckinit_ok_iff :
    Asm.statement codes ['c', 'k', 'i', 'n', 'i', 't'] ops = .ok st ↔
      ∃ o id, ops = [o] ∧ Asm.unsignedOperand 16 o = .ok id ∧ st = .command (.ckinit id) :=
  oneOperand_ok_iff (p := Asm.unsignedOperand 16) (f := fun id => .command (.ckinit id))

theorem statement_ckadd_ok_iff :
    Asm.statement codes ['c', 'k', 'a', 'd', 'd'] ops = .ok st ↔
      ∃ o b, ops = [o] ∧ Asm.unsignedOperand 8 o = .ok b ∧ st = .command (.ckadd b) :=
  oneOperand_ok_iff (p := Asm.unsignedOperand 8) (f := fun b => .command (.ckadd b))

theorem statement_word_ok_iff :
    Asm.statement codes ['.', 'w', 'o', 'r', 'd'] ops = .ok st ↔
      ∃ o w, ops = [o] ∧ Asm.unsignedOperand 32 o = .ok w ∧ st = .word w :=
  oneOperand_ok_iff (p := Asm.unsignedOperand 32) (f := .word)

theorem statement_cksum_ok_iff :
    Asm.statement codes ['c', 'k', 's', 'u', 'm'] ops = .ok st ↔
      ∃ o os id bytes, ops = o :: os ∧ Asm.unsignedOperand 16 o = .ok id ∧ Asm.byteOperands os = .ok bytes ∧
        st = .cksum id bytes := by
  match ops with
  | [] => simp [Asm.statement]
  | o :: os => simp [Asm.statement, bind_eq_ok_iff, map_eq_ok_iff]

end

/-- Settles O50: each parser in its range, and each command's line from the operands its parsers take. -/
theorem assemblerRejectsOutOfRange : Obligations.AssemblerRejectsOutOfRange := by
  refine ⟨torqueOperand_dec, torqueOperand_hex, unsignedOperand_dec, unsignedOperand_hex,
    ⟨rfl, rfl, enableOperand_dec, enableOperand_hex, fun _ => rfl⟩, fun codes name => ⟨stalkCode_eq_nameCode _ _, ?_⟩,
    fun codes ops st => ?_⟩
  · cases hcode : nameCode codes name with
    | none => exact ⟨keyOperand_stalk_none hcode, stateOperand_stalk_none hcode⟩
    | some k => exact ⟨keyOperand_stalk_some hcode, stateOperand_stalk_some hcode⟩
  · simp only [writesEnable_iff, writesTorque_iff, writesUnsigned_iff, writesState_iff, writesKey_iff,
      forall₂_writesUnsigned_iff]
    exact ⟨statement_steer_ok_iff, statement_epb_ok_iff, statement_stalk_ok_iff, statement_obscks_ok_iff,
      statement_ckinit_ok_iff, statement_ckadd_ok_iff, statement_word_ok_iff, statement_cksum_ok_iff⟩

/-- Settles O51: the decimal of each operand is one its parser takes. -/
theorem assemblerSpellsEveryCommand : Obligations.AssemblerSpellsEveryCommand := by
  intro codes en half st b w
  have hdec {bits : Nat} (v : BitVec bits) : Asm.unsignedOperand bits (.dec v.toNat) = .ok v :=
    unsignedOperand_ok_iff.mpr (.inl rfl)
  have hen : Asm.enableOperand (if en then .on else .off) = .ok en := enableOperand_ok_iff.mpr (.inl rfl)
  have htorque : Asm.torqueOperand (.dec half.toInt) = .ok half := torqueOperand_ok_iff.mpr (.inl rfl)
  have hstate : Asm.stateOperand codes (.dec st.toNat) = .ok st := stateOperand_ok_iff.mpr (.inl (.inl rfl))
  have hkey : Asm.keyOperand codes (.dec half.toNat) = .ok half := keyOperand_ok_iff.mpr (.inl (.inl rfl))
  exact ⟨statement_steer_ok_iff.mpr ⟨_, _, _, _, _, _, rfl, hen, htorque, hdec b, rfl⟩,
    statement_epb_ok_iff.mpr ⟨_, _, rfl, hdec b, rfl⟩,
    statement_stalk_ok_iff.mpr ⟨_, _, _, _, rfl, hstate, hdec b, rfl⟩,
    statement_obscks_ok_iff.mpr ⟨_, _, _, _, rfl, hkey, hdec b, rfl⟩,
    statement_ckinit_ok_iff.mpr ⟨_, _, rfl, hdec half, rfl⟩,
    statement_ckadd_ok_iff.mpr ⟨_, _, rfl, hdec b, rfl⟩,
    statement_word_ok_iff.mpr ⟨_, _, rfl, hdec w, rfl⟩⟩

end Sys2Proof.Proofs
end

section
/-! The family of spec/40_checksum.md: the streaming form of the checksum (R64), CKINIT and CKADD as instructions and as
accepted words (R62, R63), and the checksum's closed form (R60). -/

namespace Sys2Proof.Proofs

open Sys2Proof.Machine Sys2Proof.Laws Sys2Proof.Spec

/-! ## The streaming form -/

/-- What a word other than CKINIT makes of the checksum of the bytes so far: a CKADD appends its byte, an error or
another command appends nothing. -/
theorem wordAcc_checksum {w : Word} (hw : isCkinit w = false) (id : Half) (sofar : List Byte) :
    wordAcc w (checksum id sofar) = checksum id (sofar ++ (foldedByte w).toList) := by
  unfold isCkinit at hw
  unfold wordAcc foldedByte
  cases hdec : decode w with
  | error e => simp
  | ok i =>
    rw [hdec] at hw
    cases i with
    | ckinit id' => cases hw
    | ckadd b => exact (checksum_append id sofar b).symm
    | steer en torque ctr => simp [accAfter]
    | epb ctr => simp [accAfter]
    | stalk st ctr => simp [accAfter]
    | obscks key ctr => simp [accAfter]

/-- Words without a CKINIT take the checksum of the bytes so far on by the bytes of their CKADDs (R64). -/
theorem accAfterWords_checksum {ws : List Word} (hws : ∀ w ∈ ws, isCkinit w = false) (id : Half)
    (sofar : List Byte) :
    accAfterWords ws (checksum id sofar) = checksum id (sofar ++ ws.filterMap foldedByte) := by
  induction ws generalizing sofar with
  | nil => simp
  | cons w ws ih =>
    obtain ⟨hw, hws⟩ := List.forall_mem_cons.mp hws
    calc accAfterWords (w :: ws) (checksum id sofar)
        = accAfterWords ws (wordAcc w (checksum id sofar)) := rfl
      _ = checksum id (sofar ++ (foldedByte w).toList ++ ws.filterMap foldedByte) := by
        rw [wordAcc_checksum hw, ih hws]
      _ = checksum id (sofar ++ (w :: ws).filterMap foldedByte) := by
        cases hb : foldedByte w <;> simp [hb]

theorem execute_encode_ckinit (id : Half) (s : State) :
    execute (encode (.ckinit id)) s = .next (respondAcc (checksum id []) s) :=
  execute_encode _ s

theorem execute_encode_ckadd (b : Byte) (s : State) :
    execute (encode (.ckadd b)) s = .next (respondAcc (s.acc + b) s) :=
  execute_encode _ s

/-- Settles O31: CKINIT leaves the checksum of no bytes, the words after it take it on, and CKADD answers `ACC` as it
leaves it. -/
theorem streamingComputesChecksum : Obligations.StreamingComputesChecksum := by
  intro id ws s hws
  obtain ⟨t, hrest, hacc⟩ := executeAll_acc ws (respondAcc (checksum id []) s)
  rw [respondAcc_acc, accAfterWords_checksum hws, List.nil_append] at hacc
  have hrun : executeAll (encode (.ckinit id) :: ws) s = .next t := by
    simp only [executeAll, execute_encode_ckinit, hrest]
  refine ⟨⟨t, hrun, hacc⟩, ⟨respondAcc (checksum id []) s, ?_, rfl⟩, fun b => ⟨respondAcc (t.acc + b) t, ?_, ?_⟩⟩
  · simp only [executeAll, execute_encode_ckinit]
  · rw [← List.cons_append, executeAll_append _ hrun]
    simp only [executeAll, execute_encode_ckadd]
  · rw [checksum_append, ← hacc]
    rfl

/-! ## CKINIT and CKADD in every state -/

/-- Settles O17: the checksum of no bytes is the seed narrowed to a byte. -/
theorem ckinitSetsAccumulator : Obligations.CkinitSetsAccumulator := by
  intro id s
  have hseed : checksum id [] = seedByte id := by
    apply BitVec.eq_of_toNat_eq
    simp [checksum, seed, seedByte]
  rw [← hseed]
  exact exec_eq (.ckinit id) s

/-- Settles O18: addition of bytes is addition mod 256. -/
theorem ckaddAddsByte : Obligations.CkaddAddsByte := by
  intro b s
  have hadd : s.acc + b = addByte s.acc b := by
    apply BitVec.eq_of_toNat_eq
    simp [addByte]
  rw [← hadd]
  exact exec_eq (.ckadd b) s

/-! ## CKINIT and CKADD from the bits of an accepted word -/

theorem append_eq_zero_iff {m n : Nat} (x : BitVec m) (y : BitVec n) : x ++ y = 0 ↔ x = 0 ∧ y = 0 := by
  simp [← BitVec.toNat_inj, Nat.or_eq_zero_iff]

/-- `cmd[27:24]` is `E` and `RSV` (R44, R45). -/
theorem extractLsb'_24_4_eq_zero_iff (w : Word) : w.extractLsb' 24 4 = 0 ↔ fieldE w = 0 ∧ fieldRsv w = 0 := by
  have hfields : fieldE w ++ fieldRsv w = w.extractLsb' 24 4 := BitVec.extractLsb'_append_extractLsb'_eq_extractLsb' rfl
  rw [← hfields, append_eq_zero_iff]

/-- `cmd[27:16]` is `E`, `RSV` and `CTR` (R44 to R46). -/
theorem extractLsb'_16_12_eq_zero_iff (w : Word) :
    w.extractLsb' 16 12 = 0 ↔ fieldE w = 0 ∧ fieldRsv w = 0 ∧ fieldCtr w = 0 := by
  have hfields : w.extractLsb' 24 4 ++ fieldCtr w = w.extractLsb' 16 12 :=
    BitVec.extractLsb'_append_extractLsb'_eq_extractLsb' rfl
  rw [← hfields, append_eq_zero_iff, extractLsb'_24_4_eq_zero_iff, and_assoc]

theorem decode_of_op_ckinit {w : Word} (hop : fieldOp w = 5) :
    decode w = if w.extractLsb' 16 12 ≠ 0 then .error .reservedField else .ok (.ckinit (fieldImm16 w)) := by
  simp only [decode_by_fields (op := .ckinit) (opcodeOf_eq_some_iff.mpr hop), ite_not, extractLsb'_16_12_eq_zero_iff]

theorem decode_of_op_ckadd {w : Word} (hop : fieldOp w = 6) :
    decode w = if w.extractLsb' 24 4 ≠ 0 ∨ w.extractLsb' 0 16 ≠ 0 then .error .reservedField
      else .ok (.ckadd (fieldCtr w)) := by
  have hfields := decode_by_fields (op := .ckadd) (opcodeOf_eq_some_iff.mpr hop)
  refine hfields.trans ((ite_not _ _ _).symm.trans (if_congr ?_ rfl rfl))
  rw [← not_and_or, extractLsb'_24_4_eq_zero_iff, and_assoc, fieldImm16]

theorem execute_of_ok {w : Word} {i : Instr} (h : decode w = .ok i) (s : State) : execute w s = exec i s := by
  simp only [execute, h]

theorem execute_of_error {w : Word} {e : DecodeError} (h : decode w = .error e) (s : State) :
    execute w s = .next (takeError e s) := by
  simp only [execute, h]

/-- Settles O23: with `cmd[27:16]` 0 the word is a CKINIT, else it is an error. -/
theorem ckinitWordMeaning : Obligations.CkinitWordMeaning := by
  intro w s hop
  have hdec := decode_of_op_ckinit hop
  split_ifs at hdec ⊢
  · exact execute_of_error hdec s
  · exact (execute_of_ok hdec s).trans (ckinitSetsAccumulator _ s)

/-- Settles O24: with `cmd[27:24]` and `cmd[15:0]` 0 the word is a CKADD, else it is an error. -/
theorem ckaddWordMeaning : Obligations.CkaddWordMeaning := by
  intro w s hop
  have hdec := decode_of_op_ckadd hop
  split_ifs at hdec ⊢
  · exact execute_of_error hdec s
  · exact (execute_of_ok hdec s).trans (ckaddAddsByte _ s)

/-! ## The closed form -/

/-- R60: narrowing after each addition gives the sum over unbounded integers, narrowed once. -/
theorem checksum_toNat (id : Half) (bytes : List Byte) :
    (checksum id bytes).toNat = (seed id + (bytes.map (·.toNat)).sum) % 256 := by
  induction bytes using List.reverseRecOn with
  | nil => simp [checksum]
  | append_singleton bytes b ih =>
    rw [checksum_append, BitVec.toNat_add, ih]
    simp [Nat.add_assoc]

/-- Settles O30: a permutation of the bytes has the same sum. -/
theorem checksumClosedForm : Obligations.ChecksumClosedForm := by
  refine ⟨checksum_toNat, fun id bytes bytes' hperm => ?_, checksum_toNat 0x488⟩
  apply BitVec.eq_of_toNat_eq
  rw [checksum_toNat, checksum_toNat, (hperm.map _).sum_eq]

end Sys2Proof.Proofs
end

section
/-! The family of spec/41_frame_builders.md: the frame each builder writes (R69, R71, R73), the same from the bits of an
accepted word, and what all frames have in common (R70, R76, R77, R79, R80). -/

namespace Sys2Proof.Proofs

open Sys2Proof.Machine Sys2Proof.Laws Sys2Proof.Spec

/-! ## The checksum over bytes -/

/-- R59 on bytes: the narrowed seed, and one byte added after the other. -/
theorem checksum_eq_foldl (id : Half) (bytes : List Byte) :
    checksum id bytes = bytes.foldl (· + ·) (checksum id []) := by
  induction bytes using List.reverseRecOn with
  | nil => rfl
  | append_singleton bytes b ih => rw [checksum_append, ih, List.foldl_concat]

/-! ## The STEER byte with the counter -/

/-- R69, R79: bit 7 is 0, bit 6 the type, bits 5:0 those of the counter. -/
theorem steerByte2_eq_append (en : Bool) (ctr : Byte) :
    steerByte2 en ctr = (0 : BitVec 1) ++ BitVec.ofBool en ++ ctr.extractLsb' 0 6 := by
  revert en ctr
  decide

theorem steerByte2_low (en : Bool) (ctr : Byte) :
    (steerByte2 en ctr).extractLsb' 0 6 = ctr.extractLsb' 0 6 := by
  rw [steerByte2_eq_append, BitVec.extractLsb'_append_eq_of_add_le (by decide), BitVec.extractLsb'_eq_self]

theorem steerByte2_bit6 (en : Bool) (ctr : Byte) :
    (steerByte2 en ctr).extractLsb' 6 1 = BitVec.ofBool en := by
  rw [steerByte2_eq_append, BitVec.extractLsb'_append_eq_of_le (by decide),
    BitVec.extractLsb'_append_eq_of_add_le (by decide), BitVec.extractLsb'_eq_self]

/-- The type bit and the counter bits do not overlap, so `|` is `+`. -/
theorem steerByte2_eq_add (en : Bool) (ctr : Byte) :
    steerByte2 en ctr = (if en then 0x40 else 0x00) + (ctr &&& 0x3F) := by
  have hdisjoint (m : Byte) (hm : m &&& 0x3F = 0) : m &&& (ctr &&& 0x3F) = 0 := by
    rw [BitVec.and_comm ctr, ← BitVec.and_assoc, hm]
    exact BitVec.zero_and
  cases en with
  | false => exact (BitVec.add_eq_or_of_and_eq_zero _ _ (hdisjoint 0x00 rfl)).symm
  | true => exact (BitVec.add_eq_or_of_and_eq_zero _ _ (hdisjoint 0x40 rfl)).symm

/-! ## The three builders in every state -/

theorem steerRecord_eq_steerFrame (en : Bool) (torque : Half) (ctr : Byte) :
    buildRecord idSteer (steerPayload en torque ctr) busSteer = steerFrame en torque ctr := by
  have hseed : checksum 0x488 [] = 0x8C := by decide
  have hsum : checksum idSteer (steerPayload en torque ctr) =
      0x8C + torqueHigh torque + torqueLow torque + steerByte2 en ctr := by
    rw [checksum_eq_foldl, idSteer, hseed]
    rfl
  rw [buildRecord, hsum, steerPayload, steerByte2_eq_add]
  rfl

theorem epbRecord_eq_epbFrame (ctr : Byte) : buildRecord idEpb (epbPayload ctr) busEpb = epbFrame ctr := by
  have hseed : checksum 0x214 [] + 0x01 = 0x17 := by decide
  have hsum : checksum idEpb (epbPayload ctr) = 0x17 + ctr := by
    rw [checksum_eq_foldl, ← hseed]
    rfl
  rw [buildRecord, hsum]
  rfl

/-- In the checksum the bytes `FF, 0, 0, 0, 0` count as `-1`, which takes the seed 0x45 to 0x44. -/
theorem stalkRecord_eq_stalkFrame (st : BitVec 6) (ctr : Byte) :
    buildRecord idStalk (stalkPayload st ctr) busStalk = stalkFrame st ctr := by
  have hseed : checksum 0x45 [] = 0x45 := by decide
  have hbyte : stalkByte0 st = BitVec.ofNat 8 (4 * st.toNat + 2) := by
    rw [stalkByte0, Nat.shiftLeft_eq, Nat.mul_comm]
    rfl
  have hsum : checksum idStalk (stalkPayload st ctr) = 0x44 + stalkByte0 st + ctr :=
    calc checksum idStalk (stalkPayload st ctr)
        = 0x45 + stalkByte0 st + 0xFF + 0x00 + 0x00 + 0x00 + 0x00 + ctr := by
          rw [checksum_eq_foldl, idStalk, hseed]
          rfl
      _ = 0x44 + stalkByte0 st + ctr := by bv_omega
  rw [buildRecord, hsum, stalkPayload, hbyte]
  rfl

/-- Settles O13: the record STEER answers is the frame of R69. -/
theorem steerBuildsFrame : Obligations.SteerBuildsFrame := by
  intro en torque ctr s
  rw [← steerRecord_eq_steerFrame]
  exact exec_eq (.steer en torque ctr) s

/-- Settles O14: the record EPB answers is the frame of R71. -/
theorem epbBuildsFrame : Obligations.EpbBuildsFrame := by
  intro ctr s
  rw [← epbRecord_eq_epbFrame]
  exact exec_eq (.epb ctr) s

/-- Settles O15: the record STALK answers is the frame of R73. -/
theorem stalkBuildsFrame : Obligations.StalkBuildsFrame := by
  intro st ctr s
  rw [← stalkRecord_eq_stalkFrame]
  exact exec_eq (.stalk st ctr) s

/-! ## The builders from the bits of an accepted word -/

/-- An accepted word whose command answers `r` and touches nothing else: it answers `Error(2)` instead when `P` holds,
where `P` says in the command's own words that a must-be-0 bit is 1 (R50, R92). -/
theorem execute_of_opcode {w : Word} {op : Opcode} {s : State} {P : Prop} [Decidable P] {r : Rsp}
    (hop : fieldOp w = codeOf op) (hreserved : w &&& rsvMask op ≠ 0 ↔ P)
    (hexec : exec (operandsOf op w) s = .next { s with rsp := r, pend := true }) :
    execute w s = .next { s with rsp := if P then specError 2 else r, pend := true } := by
  have hdec := decode_eq_of_opcode (opcodeOf_eq_some_iff.mpr hop)
  simp only [hreserved] at hdec
  split_ifs at hdec ⊢
  · exact execute_of_error hdec s
  · exact (execute_of_ok hdec s).trans hexec

/-- `IMM16[15:6]` is 0 exactly when `IMM16` is a `stalk_state`, below 64 (R73). -/
theorem high_zero_iff_lt {imm16 : Half} : imm16 &&& 0xFFC0 = 0 ↔ imm16.toNat < 64 := by
  constructor
  · intro h
    rw [← setWidth_state_of_high_zero h, BitVec.toNat_setWidth_of_le (by decide)]
    exact (imm16.setWidth 6).isLt
  · intro h
    have hkeep : (imm16.setWidth 6).setWidth 16 = imm16 := by
      apply BitVec.eq_of_toNat_eq
      rw [BitVec.toNat_setWidth_of_le (by decide), BitVec.toNat_setWidth, Nat.mod_eq_of_lt h]
    rw [← hkeep]
    exact EncodeRow.state_high_zero _

/-- Settles O19: the must-be-0 bits of STEER are `RSV`. -/
theorem steerWordMeaning : Obligations.SteerWordMeaning := by
  intro w s hop
  exact execute_of_opcode (op := .steer) hop (rsvMask_clear_iff .steer w).not (steerBuildsFrame _ _ _ s)

/-- Settles O20: the must-be-0 bits of EPB are `E`, `RSV` and `IMM16`. -/
theorem epbWordMeaning : Obligations.EpbWordMeaning := by
  intro w s hop
  refine execute_of_opcode (op := .epb) hop ?_ (epbBuildsFrame _ s)
  rw [← not_and_or, not_iff_not, rsvMask_clear_iff, extractLsb'_24_4_eq_zero_iff, and_assoc, fieldImm16]

/-- Settles O21: the must-be-0 bits of STALK are `E`, `RSV` and `IMM16[15:6]`. -/
theorem stalkWordMeaning : Obligations.StalkWordMeaning := by
  intro w s hop
  refine execute_of_opcode (op := .stalk) hop ?_ (stalkBuildsFrame _ _ s)
  rw [← not_lt, ← not_and_or, not_iff_not, rsvMask_clear_iff, extractLsb'_24_4_eq_zero_iff, and_assoc, ← fieldImm16,
    ← high_zero_iff_lt]

/-! ## What the frames have in common -/

/-- Settles O25: the header is the builder's own constants, the checksum is that of every canonical frame. -/
theorem frameHeaderFixedAndChecksummed : Obligations.FrameHeaderFixedAndChecksummed := by
  intro i s hi
  have hframe : (recordOf i s.acc).frame = true := (recordOf_frame i s.acc).trans hi
  have hcanonical := recordOf_canonical i s.acc
  obtain ⟨-, -, -, -, hchecksum, -⟩ := hcanonical.frameKind hframe
  refine ⟨_, exec_eq i s, hframe, hcanonical.qualZero, ?_, ?_, ?_, hchecksum⟩
  · rintro en torque ctr rfl
    exact ⟨rfl, rfl, rfl⟩
  · rintro ctr rfl
    exact ⟨rfl, rfl, rfl⟩
  · rintro st ctr rfl
    exact ⟨rfl, rfl, rfl⟩

/-- Settles O26: each payload holds the counter at the index of its message type. -/
theorem counterStandsAtItsPosition : Obligations.CounterStandsAtItsPosition := by
  intro s
  refine ⟨fun en torque ctr => ?_, fun ctr => ?_, fun st ctr => ?_⟩
  · exact ⟨_, exec_eq (.steer en torque ctr) s, steerByte2_low en ctr, steerByte2_bit6 en ctr, steerByte2_bit7 en ctr⟩
  · exact ⟨_, exec_eq (.epb ctr) s, rfl⟩
  · exact ⟨_, exec_eq (.stalk st ctr) s, rfl⟩

/-- Settles O27: the constant bits and the padding of every canonical frame, each clause at its builder's id. -/
theorem constantPayloadBits : Obligations.ConstantPayloadBits := by
  intro i s hi
  have hframe : (recordOf i s.acc).frame = true := (recordOf_frame i s.acc).trans hi
  have hcanonical := recordOf_canonical i s.acc
  obtain ⟨-, -, -, -, -, hepb, hstalk, hsteer⟩ := hcanonical.frameKind hframe
  refine ⟨_, exec_eq i s, ?_, ?_, ?_, hcanonical.padding⟩
  · rintro ctr rfl
    exact hepb rfl
  · rintro st ctr rfl
    exact hstalk rfl
  · rintro en torque ctr rfl
    exact hsteer rfl

/-- Settles O29: the counter enters the frame through the third byte only, and that holds its bits 5:0 alone. -/
theorem steerIgnoresHighCounterBits : Obligations.SteerIgnoresHighCounterBits := by
  intro en torque ctr ctr' s hlow
  have hbyte : steerByte2 en ctr' = steerByte2 en ctr := by
    rw [steerByte2_eq_append, steerByte2_eq_append, hlow]
  have hpayload : steerPayload en torque ctr' = steerPayload en torque ctr := by
    rw [steerPayload, hbyte, steerPayload]
  refine ⟨_, rfl, ?_⟩
  rw [exec, execSteer, hpayload]

end Sys2Proof.Proofs
end

section
/-! The family of spec/42_diagnostic_lookup.md: OBSCKS in every state (R82), from the bits of an accepted word, the
misses that are fixed (R84), and what HIT says (R83). -/

namespace Sys2Proof.Proofs

open Sys2Proof.Machine Sys2Proof.Laws Sys2Proof.Spec

/-! ## The lookup of one key and counter -/

/-- Past 15 the counter is not narrowed: there is no entry (R82, R86). -/
theorem observedEntry_of_lt {ctr : Byte} (h : 15 < ctr.toNat) (table : Config.ObsTable) (key : Half) :
    observedEntry table key ctr = none :=
  if_neg (Nat.not_le_of_lt h)

theorem observedEntry_eq_none_of_table {table : Config.ObsTable} {key : Half} {ctr : Byte}
    (h : table key (ctr.extractLsb' 0 4) = none) : observedEntry table key ctr = none := by
  obtain hlt | hle := Nat.lt_or_ge 15 ctr.toNat
  · exact observedEntry_of_lt hlt table key
  · rw [observedEntry_of_le hle, h]

theorem lookupRecord_eq_obscksScalar (key : Half) (ctr : Byte) :
    lookupRecord (observedEntry Config.obsTable key ctr) = obscksScalar key ctr := by
  unfold obscksScalar
  split
  next v hentry => exact congrArg lookupRecord hentry
  next hentry => exact congrArg lookupRecord hentry

@[simp] theorem lookupRecord_val (entry : Option Byte) : (lookupRecord entry).val = entry.getD 0 := by
  cases entry with
  | none => rfl
  | some v => rfl

/-- Settles O35: of the three outcomes of a lookup only a recorded entry within the counter's range is a hit. -/
theorem hitBitMarksRecordedEntry : Obligations.HitBitMarksRecordedEntry := by
  intro table key ctr
  obtain hlt | hle := Nat.lt_or_ge 15 ctr.toNat
  · rw [observedEntry_of_lt hlt]
    simp [hlt]
  · rw [observedEntry_of_le hle]
    cases table key (ctr.extractLsb' 0 4) with
    | none => simp
    | some v => simp [hle]

/-! ## OBSCKS -/

/-- Settles O16: the record OBSCKS answers is the scalar of R82. -/
theorem obscksAnswersLookup : Obligations.ObscksAnswersLookup := by
  intro key ctr s
  rw [← lookupRecord_eq_obscksScalar]
  exact exec_eq (.obscks key ctr) s

/-- Settles O22: the must-be-0 bits of OBSCKS are `E` and `RSV`. -/
theorem obscksWordMeaning : Obligations.ObscksWordMeaning := by
  intro w s hop
  refine execute_of_opcode (op := .obscks) hop ?_ (obscksAnswersLookup _ _ s)
  rw [not_iff_not, rsvMask_clear_iff, extractLsb'_24_4_eq_zero_iff]

/-- A lookup that finds no entry answers the sentinel without a hit. -/
theorem exec_obscks_of_no_entry {key : Half} {ctr : Byte} (h : observedEntry Config.obsTable key ctr = none)
    (s : State) : exec (.obscks key ctr) s = .next { s with rsp := specScalar 0x00 false, pend := true } := by
  rw [obscksAnswersLookup, ← lookupRecord_eq_obscksScalar, h]
  rfl

/-- The known keys are the four codes (R6, R8). -/
theorem knownKey_eq_false_iff {dn2nd dn1st key : Half} :
    Config.knownKey dn2nd dn1st key = false ↔ key ≠ 4 ∧ key ≠ dn2nd ∧ key ≠ 16 ∧ key ≠ dn1st := by
  simp [Config.knownKey, Config.up2nd, Config.up1st, and_assoc]

/-- Settles O34: in each case no entry is found, for the table has none at an unknown key or at `(UP_1ST, 2)` (R7). -/
theorem obscksFixedMisses : Obligations.ObscksFixedMisses := by
  intro key ctr s hmiss
  obtain ⟨hunknown, hunmeasured⟩ := restrictTable_admissible Config.stalkCodeDn2nd Config.stalkCodeDn1st
    Config.rawObservation
  apply exec_obscks_of_no_entry
  obtain hkey | hpast | ⟨rfl, rfl⟩ | hnone := hmiss
  · exact observedEntry_eq_none_of_table (hunknown _ _ (knownKey_eq_false_iff.mpr hkey))
  · exact observedEntry_of_lt hpast _ _
  · exact observedEntry_eq_none_of_table hunmeasured
  · exact observedEntry_eq_none_of_table hnone

end Sys2Proof.Proofs
end

section
/-! The family of spec/60_exceptions.md: every edge gives a next state (R87, R91), which words raise which error (R89,
R90), and what an error changes (R88). -/

namespace Sys2Proof.Proofs

open Sys2Proof.Machine Sys2Proof.Laws Sys2Proof.Spec

/-- Settles O5: a step is an edge, and an edge in each of its five cases gives a next state. -/
theorem stepAlwaysGivesNextState : Obligations.StepAlwaysGivesNextState :=
  fun s => edge_next (samplePins s) (consumePins s)

/-! ## The two errors -/

/-- R88: taking `IllegalOp`, with the record of R54 written out. -/
theorem execute_of_illegalOp {w : Word} (h : decode w = .error .illegalOp) (s : State) :
    execute w s = .next { s with rsp := specError 1, pend := true } :=
  execute_of_error h s

/-- R88: taking `ReservedField`, with the record of R54 written out. -/
theorem execute_of_reservedField {w : Word} (h : decode w = .error .reservedField) (s : State) :
    execute w s = .next { s with rsp := specError 2, pend := true } :=
  execute_of_error h s

/-- Settles O12: an accepted word computes from `ACC` alone and overwrites `RSP` and `PEND`, the two fields that an
error writes; so the word after an error reaches the state it reaches without it. -/
theorem errorOnlyWritesResponse : Obligations.ErrorOnlyWritesResponse := by
  intro w s
  refine ⟨fun h => execute_of_illegalOp h s, fun h => execute_of_reservedField h s, fun e w' h => ?_⟩
  exact ⟨takeError e s, _, execute_of_error h s, execute_eq w' (takeError e s), execute_eq w' s⟩

/-! ## Which words raise them -/

/-- The unassigned opcodes (R49). -/
theorem opcodeOf_eq_none_iff {code : BitVec 4} : opcodeOf code = none ↔ code = 0 ∨ 7 ≤ code.toNat := by
  revert code
  decide

/-- Settles O10: the decoder looks at `OP` first, and at no other bit when `OP` is unassigned. -/
theorem illegalOpcodeGetsStatusOne : Obligations.IllegalOpcodeGetsStatusOne := by
  intro w s hop
  exact execute_of_illegalOp (decode_eq_illegal (opcodeOf_eq_none_iff.mpr hop)) s

/-- R50, R90: a word with an assigned `OP` is answered `Error(2)` exactly when a must-be-0 bit is 1; without one the
status of its record is 0. -/
theorem execute_eq_rsvdField_iff {w : Word} {op : Opcode} (hop : fieldOp w = codeOf op) (s : State) :
    execute w s = .next { s with rsp := specError 2, pend := true } ↔ w &&& rsvMask op ≠ 0 := by
  have hdec := decode_eq_of_opcode (opcodeOf_eq_some_iff.mpr hop)
  split_ifs at hdec with hreserved
  · exact iff_of_true (execute_of_reservedField hdec s) hreserved
  · refine iff_of_false (fun herror => ?_) hreserved
    rw [execute_of_ok hdec, exec_eq, Host.Outcome.next.injEq] at herror
    have hstatus : (recordOf (operandsOf op w) s.acc).status = 2 := congrArg (·.rsp.status) herror
    rw [recordOf_status] at hstatus
    exact absurd hstatus (by decide)

/-- The must-be-0 bits of `IMM16` in a STALK are `IMM16[15:6]` (R50). -/
theorem extractLsb'_6_10_eq_zero_iff (w : Word) : w.extractLsb' 6 10 = 0 ↔ fieldImm16 w &&& 0xFFC0 = 0 := by
  have hhigh : (w.extractLsb' 6 10).toNat = w.toNat / 2 ^ 6 % 2 ^ 10 := by
    rw [BitVec.extractLsb'_toNat, Nat.shiftRight_eq_div_pow]
  have himm : (fieldImm16 w).toNat = w.toNat % 2 ^ 16 := BitVec.extractLsb'_toNat 0 16 w
  rw [high_zero_iff_lt, himm, BitVec.toNat_eq, hhigh, BitVec.ofNat_eq_ofNat, BitVec.toNat_zero]
  omega

/-- R90's table: for each command, which fields can raise the error. -/
theorem and_rsvMask_ne_zero_iff (op : Opcode) (w : Word) :
    w &&& rsvMask op ≠ 0 ↔
      match op with
      | .steer => fieldRsv w ≠ 0
      | .epb => fieldE w ≠ 0 ∨ fieldRsv w ≠ 0 ∨ fieldImm16 w ≠ 0
      | .stalk => fieldE w ≠ 0 ∨ fieldRsv w ≠ 0 ∨ w.extractLsb' 6 10 ≠ 0
      | .obscks => fieldE w ≠ 0 ∨ fieldRsv w ≠ 0
      | .ckinit => fieldE w ≠ 0 ∨ fieldRsv w ≠ 0 ∨ fieldCtr w ≠ 0
      | .ckadd => fieldE w ≠ 0 ∨ fieldRsv w ≠ 0 ∨ fieldImm16 w ≠ 0 := by
  rw [Ne, rsvMask_clear_iff, ← extractLsb'_6_10_eq_zero_iff]
  cases op <;> simp only [ne_eq, not_and_or]

/-- Settles O11: each command raises the error on its own must-be-0 fields. -/
theorem reservedBitsGetStatusTwo : Obligations.ReservedBitsGetStatusTwo := by
  intro w s
  have hraises (op : Opcode) (hop : fieldOp w = codeOf op) :=
    (execute_eq_rsvdField_iff hop s).trans (and_rsvMask_ne_zero_iff op w)
  exact ⟨hraises .steer, hraises .epb, hraises .stalk, hraises .obscks, hraises .ckinit, hraises .ckadd⟩

end Sys2Proof.Proofs
end

section
/-! The family of spec/70_reset_and_hazards.md: the five cases of an edge (R100, R101, R104), which inputs an edge reads
(R109, R110), latency and throughput (R105), and backpressure (R108). -/

namespace Sys2Proof.Proofs

open Sys2Proof.Machine Sys2Proof.Laws Sys2Proof.Spec

/-! ## The five cases of an edge, each as an equation (R104) -/

section
variable {p : Pins} {s : State}

theorem edge_of_rst (hrst : p.rst = true) : edge p s = .next (resetBlock s) := by
  simp only [edge, hrst, if_true]

theorem edge_of_take (hrst : p.rst = false) (hpend : s.pend = true) (hready : p.rspReady = true) :
    edge p s = .next { s with pend := false } := by
  simp [edge, hrst, hpend, hready]

theorem edge_of_hold (hrst : p.rst = false) (hpend : s.pend = true) (hready : p.rspReady = false) :
    edge p s = .next s := by
  simp [edge, hrst, hpend, hready]

theorem edge_of_accept (hrst : p.rst = false) (hpend : s.pend = false) (hvalid : p.cmdValid = true) :
    edge p s = execute p.cmdData s := by
  simp [edge, hrst, hpend, hvalid]

theorem edge_of_idle (hrst : p.rst = false) (hpend : s.pend = false) (hvalid : p.cmdValid = false) :
    edge p s = .next s := by
  simp [edge, hrst, hpend, hvalid]

/-! The same for a step, which samples the inputs and uses the sample up. -/

theorem step_of_rst (hrst : (samplePins s).rst = true) : step s = .next (resetBlock (consumePins s)) :=
  edge_of_rst hrst

theorem step_of_take (hrst : (samplePins s).rst = false) (hpend : s.pend = true)
    (hready : (samplePins s).rspReady = true) : step s = .next { consumePins s with pend := false } :=
  edge_of_take hrst ((consumePins_pend s).trans hpend) hready

theorem step_of_hold (hrst : (samplePins s).rst = false) (hpend : s.pend = true)
    (hready : (samplePins s).rspReady = false) : step s = .next (consumePins s) :=
  edge_of_hold hrst ((consumePins_pend s).trans hpend) hready

theorem step_of_accept (hrst : (samplePins s).rst = false) (hpend : s.pend = false)
    (hvalid : (samplePins s).cmdValid = true) : step s = execute (samplePins s).cmdData (consumePins s) :=
  edge_of_accept hrst ((consumePins_pend s).trans hpend) hvalid

theorem step_of_idle (hrst : (samplePins s).rst = false) (hpend : s.pend = false)
    (hvalid : (samplePins s).cmdValid = false) : step s = .next (consumePins s) :=
  edge_of_idle hrst ((consumePins_pend s).trans hpend) hvalid

/-! ## What the handshake allows -/

theorem cmdReady_of_pend (hpend : s.pend = true) (rst : Bool) : cmdReady rst s = false := by
  simp [cmdReady, hpend]

theorem accepts_of_pend (hpend : s.pend = true) (p : Pins) : accepts p s = false := by
  simp [accepts, cmdReady_of_pend hpend]

theorem accepts_of_rst (hrst : p.rst = true) (s : State) : accepts p s = false := by
  simp [accepts, cmdReady, hrst]

theorem takes_of_rst (hrst : p.rst = true) (s : State) : takes p s = false := by
  simp [takes, hrst]

theorem acceptedAtEdge_of_pend (hpend : s.pend = true) : acceptedAtEdge s = [] := by
  simp [acceptedAtEdge, accepts_of_pend hpend]

/-- Why an edge accepts nothing: the block is not ready, or no command is presented to a block that is. -/
theorem accepts_eq_false_cases (h : accepts p s = false) :
    (s.pend = true ∨ p.rst = true) ∨ (p.rst = false ∧ s.pend = false ∧ p.cmdValid = false) := by
  cases hpend : s.pend with
  | true => exact .inl (.inl rfl)
  | false =>
    cases hrst : p.rst with
    | true => exact .inl (.inr rfl)
    | false => exact .inr ⟨rfl, rfl, by simpa [accepts, cmdReady, hpend, hrst] using h⟩

/-! ## Inputs an edge does not read (R109, R110) -/

theorem edge_ignores_command (h : s.pend = true ∨ p.rst = true) (v : Bool) (w : Word) :
    edge { p with cmdValid := v, cmdData := w } s = edge p s := by
  obtain hpend | hrst := h
  · simp only [edge, hpend, if_true]
  · exact (edge_of_rst (p := { p with cmdValid := v, cmdData := w }) hrst).trans (edge_of_rst hrst).symm

theorem edge_ignores_rspReady (hpend : s.pend = false) (r : Bool) : edge { p with rspReady := r } s = edge p s := by
  simp [edge, hpend]

theorem edge_ignores_cmdData (h : accepts p s = false) (w : Word) : edge { p with cmdData := w } s = edge p s := by
  obtain hbusy | ⟨hrst, hpend, hvalid⟩ := accepts_eq_false_cases h
  · exact edge_ignores_command hbusy p.cmdValid w
  · exact (edge_of_idle (p := { p with cmdData := w }) hrst hpend hvalid).trans (edge_of_idle hrst hpend hvalid).symm

end

/-- R109: an edge that neither resets nor accepts keeps `RSP`. -/
theorem step_keeps_rsp (s : State) :
    ∃ t, step s = .next t ∧ ((samplePins s).rst = false → accepts (samplePins s) s = false → t.rsp = s.rsp) := by
  obtain ⟨hrst, h⟩ | ⟨_, _, _, h⟩ | ⟨_, _, _, h⟩ | ⟨hrst, hpend, hvalid, h⟩ | ⟨_, _, _, h⟩ := step_cases s
  · exact ⟨_, h, fun hno _ => absurd (hno.symm.trans hrst) (by decide)⟩
  · exact ⟨_, h, fun _ _ => consumePins_rsp s⟩
  · exact ⟨_, h, fun _ _ => consumePins_rsp s⟩
  · have haccepts := (accepts_iff (samplePins s) s).mpr ⟨hvalid, hpend, hrst⟩
    exact ⟨_, h.trans (execute_eq _ _), fun _ hno => absurd (hno.symm.trans haccepts) (by decide)⟩
  · exact ⟨_, h, fun _ _ => consumePins_rsp s⟩

/-- Settles O42: `rsp_data` is a function of `RSP`, and an edge that does not accept does not read `cmd_data`. -/
theorem responseDataIsStable : Obligations.ResponseDataIsStable := by
  refine ⟨fun s => ?_, fun s _ ps w h => edge_ignores_cmdData (s := { s with pins := ps }) h w⟩
  obtain ⟨t, hstep, hrsp⟩ := step_keeps_rsp s
  exact ⟨t, hstep, fun hrst hno => congrArg packRsp (hrsp hrst hno)⟩

/-- Settles O43: a scripted step is the edge of its sample, and the edge does not read these inputs. -/
theorem unusedInputsAreIgnored : Obligations.UnusedInputsAreIgnored :=
  ⟨fun s _ ps v w h => edge_ignores_command (s := { s with pins := ps }) h v w,
    fun s p ps r hpend => edge_ignores_rspReady (p := p) (s := { s with pins := ps }) hpend r,
    fun _ _ _ hpend hrst hvalid => edge_of_idle hrst hpend hvalid⟩

/-! ## Throughput and backpressure (R105, R108) -/

/-- Settles O44: accepting sets `PEND`, which blocks every acceptance, and the edge that takes the response clears it. -/
theorem atMostOneCommandEveryTwoEdges : Obligations.AtMostOneCommandEveryTwoEdges := by
  intro s haccepts
  obtain ⟨hvalid, hpend, hrst⟩ := (accepts_iff _ _).mp haccepts
  obtain ⟨t, hexec, hheld, _⟩ := execute_next (samplePins s).cmdData (consumePins s)
  refine ⟨t, (step_of_accept hrst hpend hvalid).trans hexec, hheld, accepts_of_pend hheld, fun htakes => ?_⟩
  obtain ⟨_, hready, hrst'⟩ := (takes_iff _ _).mp htakes
  exact ⟨_, step_of_take hrst' hheld hready, consumePins_rsp t, rfl⟩

/-- Settles O45, by induction on the number of edges: each one holds, and only uses its sample up. -/
theorem untakenResponseStallsBlock : Obligations.UntakenResponseStallsBlock := by
  intro n
  induction n with
  | zero =>
    intro s hpend _
    exact ⟨s, rfl, hpend, rfl, rfl, rfl, cmdReady_of_pend hpend⟩
  | succ n ih =>
    intro s hpend ⟨hrst, hready, hrest⟩
    have hstep := step_of_hold hrst hpend hready
    obtain ⟨t, hrun, hpend', hacc, hrsp, hnone, hblocked⟩ :=
      ih (consumePins s) ((consumePins_pend s).trans hpend) (hrest _ hstep)
    refine ⟨t, (run_succ hstep).trans hrun, hpend', hacc.trans (consumePins_acc s), hrsp.trans (consumePins_rsp s),
      ?_, hblocked⟩
    rw [acceptedWords_succ hstep, acceptedAtEdge_of_pend hpend, hnone, List.append_nil]

/-! ## Reset, and the step as a whole (R101, R104) -/

/-- Settles O2: the reset case of an edge, at which neither handshake can complete. -/
theorem resetEdgeRestoresResetValues : Obligations.ResetEdgeRestoresResetValues := by
  intro s hrst
  have hstep := step_of_rst hrst
  refine ⟨hstep, accepts_of_rst hrst s, takes_of_rst hrst s, fun t ht => ?_⟩
  obtain rfl := Host.Outcome.next.inj (hstep.symm.trans ht)
  rfl

/-- Settles O3: one equation for each case, and what using up the sample leaves alone. -/
theorem stepFollowsEdgeRules : Obligations.StepFollowsEdgeRules := fun s =>
  ⟨step_of_rst, step_of_take, step_of_hold, step_of_accept, step_of_idle,
    consumePins_acc s, consumePins_pend s, consumePins_rsp s⟩

/-- A word given as a number is decoded as the 32-bit word it is. -/
theorem decodeTableWord_eq_some_iff {nbits w : Nat} {i : Instr} :
    decodeTableWord nbits w = some i ↔ decode (BitVec.ofNat 32 (w % 2 ^ nbits)) = .ok i := by
  unfold decodeTableWord
  cases decode (BitVec.ofNat 32 (w % 2 ^ nbits)) <;> simp

/-- The step of `presentCommand` executes the word on the state with no response held. -/
theorem step_presentCommand (w : Word) (s : State) :
    step (presentCommand w s) = execute w { s with pend := false } :=
  edge_of_accept (p := presentPins w) (s := { s with pend := false }) rfl rfl rfl

/-- Settles O4: the accepting case of an edge, with a word that decodes. -/
theorem stepRunsDecodedCommand : Obligations.StepRunsDecodedCommand := by
  refine ⟨fun s i haccepts hdec => ?_, fun s w i hdec => ?_⟩
  · obtain ⟨hvalid, hpend, hrst⟩ := (accepts_iff _ _).mp haccepts
    exact (step_of_accept hrst hpend hvalid).trans (execute_of_ok hdec _)
  · exact (step_presentCommand _ s).trans (execute_of_ok (decodeTableWord_eq_some_iff.mp hdec) _)

end Sys2Proof.Proofs
end
